-- ==== Sys2Proof/Word.lean ====
section
/-! DEFINITION. The word types of the BlueEagle core: everything in this hardware is an unsigned byte (R3, R4, R11). -/

namespace Sys2Proof

/-- A memory cell, a register, an address, the pc or an instruction byte: 8 bits, unsigned (R3, R4, R6).
`+`, `-` and `*` on it are the sums, differences and products modulo 256 of R16, R18 and R77. -/
abbrev Byte := BitVec 8

/-- An index 0..7 into the register file (R4, R15). -/
abbrev Reg := Fin 8

/-- The 3-bit flags register `FL` (R7, R19): E is bit 0, G is bit 1, L is bit 2. -/
abbrev FlagBits := BitVec 3

end Sys2Proof
end

