-- ==== Sys2Proof/Machine/Flags.lean ====
section
/-! DEFINITION. The flags register `FL` and its only computation, that of CMP (R19, R76). -/

namespace Sys2Proof.Machine

/-- `FL.E`, Equal (R19). -/
def flE (fl : FlagBits) : Bool := fl.getLsbD 0

/-- `FL.G`, Greater-than (R19). -/
def flG (fl : FlagBits) : Bool := fl.getLsbD 1

/-- `FL.L`, Less-than (R19). -/
def flL (fl : FlagBits) : Bool := fl.getLsbD 2

/-- `FL` read as a byte: bits 7:3 are 0 (R7, R19). -/
def flByte (fl : FlagBits) : Byte := fl.zeroExtend 8

/-- The flags after comparing `p` with `q` as unsigned values (R76). -/
def compareFlags (p q : Byte) : FlagBits :=
  if p.toNat < q.toNat then 0b100 else if q.toNat < p.toNat then 0b010 else 0b001

end Sys2Proof.Machine
end

