-- ==== Sys2Proof/Syntax.lean ====
section
/-! DEFINITION. The 13 instructions of the fixed instruction table (R2, R49), one constructor per row.
A register operand stays the whole byte of the encoding: RegIndex reads it at execution, because its result
depends on the configuration (R47). -/

namespace Sys2Proof

/-- An instruction with its operand bytes, in the roles of R46. -/
inductive Instr where
  /-- `HLT` (R60). -/
  | hlt
  /-- `LDI Ra, imm8` (R61): `a` the destination register operand, `imm` the immediate (R48). -/
  | ldi (a imm : Byte)
  /-- `PRN Ra` (R62). -/
  | prn (a : Byte)
  /-- `PUSH Ra` (R65). -/
  | push (a : Byte)
  /-- `POP Ra` (R66): `a` the destination register operand. -/
  | pop (a : Byte)
  /-- `CALL Ra` (R67): the target is in the register. -/
  | call (a : Byte)
  /-- `RET` (R68). -/
  | ret
  /-- `JMP Ra` (R69). -/
  | jmp (a : Byte)
  /-- `JEQ Ra` (R70). -/
  | jeq (a : Byte)
  /-- `JNE Ra` (R71). -/
  | jne (a : Byte)
  /-- `ADD Ra, Rb` (R74): `a` is destination and first source. -/
  | add (a b : Byte)
  /-- `MUL Ra, Rb` (R75): `a` is destination and first source. -/
  | mul (a b : Byte)
  /-- `CMP Ra, Rb` (R76). -/
  | cmp (a b : Byte)
deriving DecidableEq, Repr

/-- The register-index operand bytes, in the order they are decoded: a first, then b (R46, R47).
LDI's `imm` is no register index (R84). -/
def Instr.regOperands : Instr → List Byte
  | .hlt => []
  | .ldi a _ => [a]
  | .prn a => [a]
  | .push a => [a]
  | .pop a => [a]
  | .call a => [a]
  | .ret => []
  | .jmp a => [a]
  | .jeq a => [a]
  | .jne a => [a]
  | .add a b => [a, b]
  | .mul a b => [a, b]
  | .cmp a b => [a, b]

end Sys2Proof
end

