-- ==== Sys2Proof/Decode.lean ====
section
/-! DEFINITION. The opcode map, the length rule, the decoder (total, refusing by name) and the encoder of
`30_encoding.md`. -/

namespace Sys2Proof

/-! ### The opcode map (R49) -/

abbrev Opcode.hlt  : Byte := 0x01
abbrev Opcode.ldi  : Byte := 0x82
abbrev Opcode.prn  : Byte := 0x47
abbrev Opcode.push : Byte := 0x45
abbrev Opcode.pop  : Byte := 0x46
abbrev Opcode.call : Byte := 0x50
abbrev Opcode.ret  : Byte := 0x11
abbrev Opcode.jmp  : Byte := 0x54
abbrev Opcode.jeq  : Byte := 0x55
abbrev Opcode.jne  : Byte := 0x56
abbrev Opcode.add  : Byte := 0xA0
abbrev Opcode.mul  : Byte := 0xA2
abbrev Opcode.cmp  : Byte := 0xA7

/-- The 13 opcode bytes of the fixed instruction table, in its order (R49). -/
def opcodeTable : List Byte :=
  [Opcode.hlt, Opcode.ldi, Opcode.prn, Opcode.push, Opcode.pop, Opcode.call, Opcode.ret,
   Opcode.jmp, Opcode.jeq, Opcode.jne, Opcode.add, Opcode.mul, Opcode.cmp]

/-- The opcode byte of an instruction (R49). -/
def Instr.opcode : Instr → Byte
  | .hlt => Opcode.hlt
  | .ldi _ _ => Opcode.ldi
  | .prn _ => Opcode.prn
  | .push _ => Opcode.push
  | .pop _ => Opcode.pop
  | .call _ => Opcode.call
  | .ret => Opcode.ret
  | .jmp _ => Opcode.jmp
  | .jeq _ => Opcode.jeq
  | .jne _ => Opcode.jne
  | .add _ _ => Opcode.add
  | .mul _ _ => Opcode.mul
  | .cmp _ _ => Opcode.cmp

/-! ### The opcode's fields (R44) and the length (R45) -/

/-- Bit 5, the ALU-class bit (R44). -/
def opcodeIsAlu (op : Byte) : Bool := op.getLsbD 5

/-- Bit 4, the PC-self-set bit (R44). -/
def opcodeSetsPc (op : Byte) : Bool := op.getLsbD 4

/-- `Length(op)`, for every byte value: bit 7 decides, then bit 6 (R45). -/
def instrLength (op : Byte) : Nat :=
  if op.getLsbD 7 then 3 else if op.getLsbD 6 then 2 else 1

/-! ### The decoder -/

/-- Why bytes are no instruction. -/
inductive DecodeError where
  /-- The opcode byte is not in the table (R50); the machine then runs R81 or R82. -/
  | unknownOpcode (op : Byte)
  /-- A finite list of bytes ends before the instruction does. The machine's fetch never meets this: it always reads three bytes (R55). -/
  | truncated
deriving DecidableEq, Repr

/-- Decode one fetched window (R55, R56): all 8 bits of `op` are compared against the table; `a` and `b` are the two
lookahead bytes, of which the instruction takes those it has operands for (R43). -/
def decode (op a b : Byte) : Except DecodeError Instr :=
  match op with
  | 0x01#8 => .ok .hlt
  | 0x82#8 => .ok (.ldi a b)
  | 0x47#8 => .ok (.prn a)
  | 0x45#8 => .ok (.push a)
  | 0x46#8 => .ok (.pop a)
  | 0x50#8 => .ok (.call a)
  | 0x11#8 => .ok .ret
  | 0x54#8 => .ok (.jmp a)
  | 0x55#8 => .ok (.jeq a)
  | 0x56#8 => .ok (.jne a)
  | 0xA0#8 => .ok (.add a b)
  | 0xA2#8 => .ok (.mul a b)
  | 0xA7#8 => .ok (.cmp a b)
  | _ => .error (.unknownOpcode op)

/-- Decode the instruction at the head of a list of bytes and return the bytes after it, `Length(op)` further on (R45). -/
def decodeBytes : List Byte → Except DecodeError (Instr × List Byte)
  | [] => .error .truncated
  | op :: rest =>
    match decode op (rest.getD 0 0) (rest.getD 1 0) with
    | .error e => .error e
    | .ok i =>
      if rest.length + 1 < instrLength op then .error .truncated
      else .ok (i, rest.drop (instrLength op - 1))

/-! ### The encoder -/

/-- The bytes of an instruction at ascending addresses: opcode, operand a, operand b (R32, R43). -/
def encode : Instr → List Byte
  | .hlt => [0x01]
  | .ldi a imm => [0x82, a, imm]
  | .prn a => [0x47, a]
  | .push a => [0x45, a]
  | .pop a => [0x46, a]
  | .call a => [0x50, a]
  | .ret => [0x11]
  | .jmp a => [0x54, a]
  | .jeq a => [0x55, a]
  | .jne a => [0x56, a]
  | .add a b => [0xA0, a, b]
  | .mul a b => [0xA2, a, b]
  | .cmp a b => [0xA7, a, b]

/-! ### The opcode table's numbering of an instruction's bits -/

/-- Byte `k` of an instruction whose `nbits` bits are `w` (byte 0 is the opcode); bytes above `nbits` are 0. -/
def tableByte (nbits w k : Nat) : Byte :=
  if 8 * k < nbits then BitVec.ofNat 8 (w >>> (8 * k)) else 0

/-- What the decoder reads from an instruction given as the opcode table numbers its bits. -/
def decodeTableWord (nbits w : Nat) : Option Instr :=
  match decode (tableByte nbits w 0) (tableByte nbits w 1) (tableByte nbits w 2) with
  | .ok i => some i
  | .error _ => none

end Sys2Proof
end

