-- ==== Sys2Proof/Config.lean ====
section
/-! DEFINITION. The fixed parameters and the three configuration parameters of `00_scope.md` section 4. -/

namespace Sys2Proof

/-- `UNKNOWN_OPCODE_POLICY` (R8): what an unknown opcode does. -/
inductive UnknownOpcodePolicy where
  /-- The default: emit a diagnostic and continue (R81). -/
  | skip
  /-- Stop the core in the Faulted state (R82). -/
  | fault
deriving DecidableEq, Repr

/-- `STACK_CHECK` (R9): whether a stack operation that would wrap SP stops the core (R83). -/
inductive StackCheck where
  /-- The default: SP wraps modulo 256. -/
  | off
  /-- A push at SP = 0x00 or a pop at SP = 0xFF raises a fault. -/
  | on
deriving DecidableEq, Repr

/-- `REG_INDEX_MODE` (R10): what a register-index operand byte of 8 or more does (R47). -/
inductive RegIndexMode where
  /-- The default: the byte's low three bits select the register. -/
  | mask
  /-- A byte of 8 or more raises IllegalRegister (R84). -/
  | fault
deriving DecidableEq, Repr

/-- The configuration of one core. It is fixed for that core: nothing the core or the host does changes it (R96). -/
structure Config where
  unknownOpcodePolicy : UnknownOpcodePolicy
  stackCheck          : StackCheck
  regIndexMode        : RegIndexMode
deriving DecidableEq, Repr

/-- The default configuration, "the BlueEagle core" (`00_scope.md` section 4). -/
def Config.default : Config :=
  { unknownOpcodePolicy := .skip, stackCheck := .off, regIndexMode := .mask }

/-- `MEM_SIZE` (R3): the number of memory cells. -/
def memSize : Nat := 256

/-- `SP_INDEX` (R5): the register that is the stack pointer. -/
def spIndex : Reg := 7

/-- `SP_RESET` (R5): the stack pointer's value after reset. -/
def spReset : Byte := 0xF4

end Sys2Proof
end

