-- ==== Sys2Proof/Machine/State.lean ====
section
/-! DEFINITION. The core's state as plain data (R14), the reasons an operation can stop, and the state after reset (R26). -/

namespace Sys2Proof.Machine

/-- The conditions of R80, each with the code that `Condition.code` gives it. -/
inductive Condition where
  /-- No fault recorded. -/
  | none
  /-- The opcode is not in the table (R82). -/
  | unknownOpcode
  /-- A register-index operand byte of 8 or more under `REG_INDEX_MODE = fault` (R84). -/
  | illegalRegister
  /-- A push at SP = 0x00 under `STACK_CHECK = on` (R83). -/
  | stackOverflow
  /-- A pop at SP = 0xFF under `STACK_CHECK = on` (R83). -/
  | stackUnderflow
  /-- A load of more than 256 bytes: the load port's answer, never stored in `faultCause` (R80, R88). -/
  | programTooLarge
deriving DecidableEq, Repr

/-- One event of the event trace (R25). -/
inductive Event where
  /-- `Out(v)`, emitted by PRN (R62). -/
  | out (v : Byte)
  /-- `Diag(op, addr)`, emitted for an unknown opcode fetched from `addr` (R89). -/
  | diag (op addr : Byte)
deriving DecidableEq, Repr

/-- The run state the core shows at its `status` output: Running, Halted, or Faulted with the fault cause (R13, R22). -/
inductive Status where
  | running
  | halted
  | faulted (cause : Condition)
deriving DecidableEq, Repr

/-- Memory: the (address, byte) pairs of the cells that do not hold the reset value 0x00, addresses strictly rising
and below 256 (R27, R26; the form is `Memory.wf`). -/
abbrev Memory := List Host.Cell

/-- The architectural state, complete (R14), and beside it the core's configuration (log 1). -/
structure State where
  /-- `M[0..255]` (R27). -/
  mem        : Memory
  /-- `x[0..7]` (R15); `x[7]` is SP (R17). -/
  regs       : Vector Byte 8
  /-- `pc`: the address of the opcode byte (R18). -/
  pc         : Byte
  /-- `FL` (R19). -/
  fl         : FlagBits
  /-- Set by HLT (R22). -/
  halted     : Bool
  /-- Set by taking a fault (R23). -/
  faulted    : Bool
  /-- `fault_cause` (R23). -/
  faultCause : Condition
  /-- `fault_pc`: the address of the faulting instruction's opcode (R23). -/
  faultPc    : Byte
  /-- `fault_info` (R23). -/
  faultInfo  : Byte
  /-- The event trace, oldest event first (R25). -/
  trace      : List Event
  /-- The configuration parameters, which no operation changes (R8, R9, R10, R96; log 1). -/
  config     : Config
deriving DecidableEq, Repr

/-- Why an operation stops with a fault. No STEP of this hardware does: every condition a step can meet is
taken inside the machine, as a next state (R79, R85). -/
inductive Fault where
  /-- `ProgramTooLarge(n)`: raised by the load port alone (`load`), for n > 256 bytes (R88; the stop that
  93_implementation_defined.md I12 asks for at the load port). Safe: the load has no effect. -/
  | programTooLarge (n : Nat)
deriving DecidableEq, Repr

/-- Why an instruction has no meaning in the model. -/
inductive Refusal where
  /-- An instruction without a meaning, by its mnemonic in the opcode table. No arm of `exec` raises it: all 13 have theirs. Safe. -/
  | notModelled (mnemonic : String)
deriving DecidableEq, Repr

/-- The state right after the core is created, which is a reset (R26, R97), in the default configuration (log 1) and with
nothing emitted yet (log 10). -/
def State.reset : State :=
  { mem := []
    regs := #v[0x00, 0x00, 0x00, 0x00, 0x00, 0x00, 0x00, spReset]
    pc := 0x00
    fl := 0b000
    halted := false
    faulted := false
    faultCause := .none
    faultPc := 0x00
    faultInfo := 0x00
    trace := []
    config := Config.default }

end Sys2Proof.Machine
end

