-- ==== Sys2Proof/Machine/Ops.lean ====
section
/-! DEFINITION. The named operations over memory, registers, pc, trace and run state, and the entry into the Faulted
state. There is no operation that returns from it: nothing does but the host's reset (R79, R86). -/

namespace Sys2Proof.Machine

/-! ### Memory -/

/-- What a cell that is not listed holds: the reset contents (R26, R39). -/
def Memory.unlisted : Byte := 0x00

/-- `M[a]`. -/
def Memory.read : Memory → Nat → Byte
  | [], _ => Memory.unlisted
  | (b, w) :: m, a => if a = b then w else Memory.read m a

/-- The list without its entry for `a`. -/
def Memory.erase : Memory → Nat → Memory
  | [], _ => []
  | (b, w) :: m, a => if a = b then Memory.erase m a else (b, w) :: Memory.erase m a

/-- The list with the entry `(a, v)`, in its place by address. -/
def Memory.insert : Memory → Nat → Byte → Memory
  | [], a, v => [(a, v)]
  | (b, w) :: m, a, v =>
    if a < b then (a, v) :: (b, w) :: m
    else if a = b then (a, v) :: m
    else (b, w) :: Memory.insert m a v

/-- `M[a] <- v`, keeping the canonical form: storing what an unlisted cell holds removes the entry. -/
def Memory.write (m : Memory) (a : Nat) (v : Byte) : Memory :=
  if v = Memory.unlisted then Memory.erase m a else Memory.insert m a v

/-- The canonical form from address `lo` on: addresses rise from `lo`, lie below 256, and no entry holds the unlisted value. -/
def Memory.wfFrom : Nat → Memory → Bool
  | _, [] => true
  | lo, (b, w) :: m =>
    decide (lo ≤ b) && decide (b < memSize) && decide (w ≠ Memory.unlisted) && Memory.wfFrom (b + 1) m

/-- The canonical form of memory: equal memories are then equal lists. -/
def Memory.wf (m : Memory) : Bool := Memory.wfFrom 0 m

/-- `MemRead(addr, 1)` (R29). An address is 8 bits, so it is already reduced modulo 256 (R28). -/
def State.memRead (s : State) (addr : Byte) : Byte := Memory.read s.mem addr.toNat

/-- `MemWrite(addr, 1, v)` (R30). -/
def State.memWrite (s : State) (addr v : Byte) : State :=
  { s with mem := Memory.write s.mem addr.toNat v }

/-! ### Registers, pc, trace -/

/-- `x[r]` (R15). -/
def State.reg (s : State) (r : Reg) : Byte := s.regs[r]

/-- `x[r] <- v` (R15, R16). -/
def State.setReg (s : State) (r : Reg) (v : Byte) : State := { s with regs := s.regs.set r v }

/-- `SP`, another name for `x[7]` (R17). -/
def State.sp (s : State) : Byte := s.reg spIndex

/-- `SP <- v` (R17). -/
def State.setSp (s : State) (v : Byte) : State := s.setReg spIndex v

/-- `pc <- v` (R18). -/
def State.setPc (s : State) (v : Byte) : State := { s with pc := v }

/-- `FL <- v` (R19). -/
def State.setFl (s : State) (v : FlagBits) : State := { s with fl := v }

/-- `halted <- 1` (R22). -/
def State.halt (s : State) : State := { s with halted := true }

/-- `emit e`: append to the event trace (R12, R25). -/
def State.emit (s : State) (e : Event) : State := { s with trace := s.trace ++ [e] }

/-- The generic advance: `pc <- (pc + Length(op)) mod 256` (R57). -/
def State.advance (s : State) (op : Byte) : State := s.setPc (s.pc + BitVec.ofNat 8 (instrLength op))

/-! ### Run state (R22) -/

/-- The core is Running: neither halted nor faulted. -/
def State.isRunning (s : State) : Bool := !s.halted && !s.faulted

/-- The `status` output (R13, R22, R23). -/
def State.status (s : State) : Status :=
  if s.faulted then .faulted s.faultCause else if s.halted then .halted else .running

/-- What a step does outside Running: nothing, and it emits nothing (R54). -/
def State.idle (s : State) : State := s

/-! ### Taking a fault (R85) -/

/-- The code of a condition (R80). -/
def Condition.code : Condition → BitVec 3
  | .none => 0
  | .unknownOpcode => 1
  | .illegalRegister => 2
  | .stackOverflow => 3
  | .stackUnderflow => 4
  | .programTooLarge => 5

/-- `raise c(info)`: the four fault fields, all at once, and nothing else; pc keeps the opcode's address (R85). -/
def raise (c : Condition) (info : Byte) (s : State) : State :=
  { s with faulted := true, faultCause := c, faultPc := s.pc, faultInfo := info }

end Sys2Proof.Machine
end

