-- ==== Sys2Proof/Machine/Operands.lean ====
section
/-! DEFINITION. The operand forms: a register-index operand byte (R47). The only other form is LDI's immediate, the
byte itself (R48). -/

namespace Sys2Proof.Machine

/-- `r[2:0]`: the register an operand byte selects. A byte below 8 selects itself in both modes (R47). -/
def regOf (r : Byte) : Reg := ⟨r.toNat % 8, Nat.mod_lt _ (by decide)⟩

/-- RegIndex raises IllegalRegister for this operand byte (R47, R84). -/
def regIndexRaises (mode : RegIndexMode) (r : Byte) : Bool :=
  match mode with
  | .mask => false
  | .fault => decide (8 ≤ r.toNat)

/-- `d = RegIndex(r)`, then `k d`; a raise ends the instruction here (R47, R85). -/
def withReg (r : Byte) (s : State) (k : Reg → State) : State :=
  if regIndexRaises s.config.regIndexMode r then raise .illegalRegister r s else k (regOf r)

end Sys2Proof.Machine
end

