-- ==== Sys2Proof/Machine/Alu.lean ====
section
/-! DEFINITION. The ALU's closed map of operations: ADD, MUL and CMP (`43_alu.md`, R73). -/

namespace Sys2Proof.Machine

/-- `x[d] <- f(x[d], x[s])` with both operands decoded first, a before b, then the generic advance (R74, R75). -/
def aluWrite (f : Byte → Byte → Byte) (op a b : Byte) (s : State) : State :=
  withReg a s fun d => withReg b s fun r => (s.setReg d (f (s.reg d) (s.reg r))).advance op

/-- ADD (R74): the sum modulo 256; no flag. -/
def execAdd (a b : Byte) (s : State) : Host.Outcome State Fault Refusal :=
  .next (aluWrite (fun x y => x + y) Opcode.add a b s)

/-- MUL (R75): the low 8 bits of the unsigned product; no flag. -/
def execMul (a b : Byte) (s : State) : Host.Outcome State Fault Refusal :=
  .next (aluWrite (fun x y => x * y) Opcode.mul a b s)

/-- CMP (R76): all of FL is written, and no register. -/
def execCmp (a b : Byte) (s : State) : Host.Outcome State Fault Refusal :=
  .next (withReg a s fun p => withReg b s fun q =>
    (s.setFl (compareFlags (s.reg p) (s.reg q))).advance Opcode.cmp)

end Sys2Proof.Machine
end

