-- ==== Sys2Proof/Machine/Stack.lean ====
section
/-! DEFINITION. The stack primitives and PUSH and POP (`41_stack.md`). -/

namespace Sys2Proof.Machine

/-- A push at this state raises StackOverflow: `STACK_CHECK = on` and SP = 0x00 (R63, R83). -/
def pushRaises (s : State) : Bool := decide (s.config.stackCheck = .on ∧ s.sp = 0x00)

/-- A pop at this state raises StackUnderflow: `STACK_CHECK = on` and SP = 0xFF (R64, R83). -/
def popRaises (s : State) : Bool := decide (s.config.stackCheck = .on ∧ s.sp = 0xFF)

/-- The check of R63, then `k`. -/
def checkPush (s : State) (k : State) : State :=
  if pushRaises s then raise .stackOverflow s.sp s else k

/-- The check of R64, then `k`. -/
def checkPop (s : State) (k : State) : State :=
  if popRaises s then raise .stackUnderflow s.sp s else k

/-- `x[7] <- (x[7] - 1) mod 256` (R63). -/
def decSp (s : State) : State := s.setSp (s.sp - 1)

/-- `x[7] <- (x[7] + 1) mod 256` (R64). -/
def incSp (s : State) : State := s.setSp (s.sp + 1)

/-- `Push8(v)`, then `k` (R63): decrement, then store at the new SP. -/
def push8 (v : Byte) (s : State) (k : State → State) : State :=
  checkPush s (k ((decSp s).memWrite (decSp s).sp v))

/-- `v = Pop8()`, then `k v` (R64): load at SP, then increment. -/
def pop8 (s : State) (k : Byte → State → State) : State :=
  checkPop s (k (s.memRead s.sp) (incSp s))

/-- PUSH (R65): SP is decremented first; the register is read after that and stored at the new SP. -/
def execPush (a : Byte) (s : State) : Host.Outcome State Fault Refusal :=
  .next (withReg a s fun r => checkPush s
    (((decSp s).memWrite (decSp s).sp ((decSp s).reg r)).advance Opcode.push))

/-- POP (R66): the register is written first; SP is read after that and incremented. -/
def execPop (a : Byte) (s : State) : Host.Outcome State Fault Refusal :=
  .next (withReg a s fun d => checkPop s
    ((incSp (s.setReg d (s.memRead s.sp))).advance Opcode.pop))

end Sys2Proof.Machine
end

