-- ==== Sys2Proof/Machine/Control.lean ====
section
/-! DEFINITION. CALL, RET, JMP, JEQ and JNE (`42_control_transfer.md`). Each writes pc itself on every path; the generic
advance is skipped (R57). -/

namespace Sys2Proof.Machine

/-- CALL (R67): push `pc + 2`, then `pc <- x[s]`, the register read after the push. -/
def execCall (a : Byte) (s : State) : Host.Outcome State Fault Refusal :=
  .next (withReg a s fun r => push8 (s.pc + 2) s fun t => t.setPc (t.reg r))

/-- RET (R68): `pc <- Pop8()`. -/
def execRet (s : State) : Host.Outcome State Fault Refusal :=
  .next (pop8 s fun v t => t.setPc v)

/-- JMP (R69): `pc <- x[s]`. -/
def execJmp (a : Byte) (s : State) : Host.Outcome State Fault Refusal :=
  .next (withReg a s fun r => s.setPc (s.reg r))

/-- The two paths of a conditional jump: `pc <- x[r]` when taken, else `pc <- pc + 2` (R70, R71). -/
def jumpIf (taken : Bool) (r : Reg) (s : State) : State :=
  s.setPc (if taken then s.reg r else s.pc + 2)

/-- JEQ (R70): taken when E is set. The operand is checked on both paths (R84). -/
def execJeq (a : Byte) (s : State) : Host.Outcome State Fault Refusal :=
  .next (withReg a s fun r => jumpIf (flE s.fl) r s)

/-- JNE (R71): taken when E is clear. The operand is checked on both paths (R84). -/
def execJne (a : Byte) (s : State) : Host.Outcome State Fault Refusal :=
  .next (withReg a s fun r => jumpIf (!flE s.fl) r s)

end Sys2Proof.Machine
end

