-- ==== Sys2Proof/Machine/HaltLoadPrint.lean ====
section
/-! DEFINITION. HLT, LDI and PRN (`40_halt_load_print.md`). -/

namespace Sys2Proof.Machine

/-- HLT (R60): `halted <- 1`, then the generic advance of the same step. -/
def execHlt (s : State) : Host.Outcome State Fault Refusal :=
  .next (s.halt.advance Opcode.hlt)

/-- LDI (R61): `x[d] <- b`, the immediate as it is (R48). -/
def execLdi (a imm : Byte) (s : State) : Host.Outcome State Fault Refusal :=
  .next (withReg a s fun d => (s.setReg d imm).advance Opcode.ldi)

/-- PRN (R62): `emit Out(x[s])`; no register, memory cell or flag changes. -/
def execPrn (a : Byte) (s : State) : Host.Outcome State Fault Refusal :=
  .next (withReg a s fun r => (s.emit (.out (s.reg r))).advance Opcode.prn)

end Sys2Proof.Machine
end

