-- ==== Sys2Proof/Machine/Unknown.lean ====
section
/-! DEFINITION. The fetch window (R55) and what an unknown opcode does (R81, R82). -/

namespace Sys2Proof.Machine

/-- The byte fetched at `pc + k`, the address modulo 256 (R28, R55). -/
def fetchByte (s : State) (k : Byte) : Byte := s.memRead (s.pc + k)

/-- The unknown-opcode rule: under `skip` a diagnostic with the opcode and its address, then the generic advance
whatever bit 4 is (R81, R57); under `fault` the fault entry and no event (R82). -/
def execUnknown (op : Byte) (s : State) : State :=
  match s.config.unknownOpcodePolicy with
  | .skip => (s.emit (.diag op s.pc)).advance op
  | .fault => raise .unknownOpcode op s

end Sys2Proof.Machine
end

