-- ==== Sys2Proof/Machine/Step.lean ====
section
/-! DEFINITION. One step of the core (R54, R55, R56, R58). -/

namespace Sys2Proof.Machine

/-- `step` (R58): outside Running nothing happens (R54); else three bytes are fetched (R55), the opcode is matched
against the table (R56), and the instruction's rule or the unknown-opcode rule runs. The generic advance of R57
stands in each rule that has it. -/
def step (s : State) : Host.Outcome State Fault Refusal :=
  if s.isRunning then
    match decode (fetchByte s 0) (fetchByte s 1) (fetchByte s 2) with
    | .ok i => exec i s
    | .error _ => .next (execUnknown (fetchByte s 0) s)
  else .next s.idle

/-- `s` with an instruction, given as the opcode table numbers its bits, stored at the three cells the next fetch reads.
It stands for a load of those bytes (log 12). Nothing else changes; a Halted or Faulted core stays so, as after a load (R38; log 13). -/
def State.withFetchWord (s : State) (nbits w : Nat) : State :=
  ((s.memWrite s.pc (tableByte nbits w 0)).memWrite (s.pc + 1) (tableByte nbits w 1)).memWrite
    (s.pc + 2) (tableByte nbits w 2)

end Sys2Proof.Machine
end

