-- ==== Sys2Proof/Machine/HostPort.lean ====
section
/-! DEFINITION. The host operations of R13's table, reset, load, step and run, and the creation of a core (R97; log 20).
They are performed one at a time (R38), so a history of the core is a list of them. -/

namespace Sys2Proof.Machine

/-- A core created with configuration `c`: creation is a reset (R97, D19; log 21). R13 speaks of five host
operations and its table lists four. DESIGN CHOICE (log 20): the model reads creation as the fifth. -/
def State.created (c : Config) : State := { State.reset with config := c }

/-- `reset` (R96): every element of R26 at its reset value; the trace and the configuration are kept. -/
def resetOp (s : State) : State := { State.reset with trace := s.trace, config := s.config }

/-- `M[i] <- bytes[0]`, `M[i+1] <- bytes[1]`, ... in order (R37). -/
def loadFrom : Nat → List Byte → State → State
  | _, [], s => s
  | i, v :: vs, s => loadFrom (i + 1) vs (s.memWrite (BitVec.ofNat 8 i) v)

/-- `load(bytes)` (R37, R88): at most 256 bytes are written from address 0 on; more are refused as ProgramTooLarge(n),
with no effect. -/
def load (bytes : List Byte) (s : State) : Host.Outcome State Fault Refusal :=
  if bytes.length ≤ memSize then .next (loadFrom 0 bytes s) else .fault (.programTooLarge bytes.length)

/-- `run`, cut after `fuel` steps (R59): steps while the core is Running. -/
def runFor : Nat → State → Host.Outcome State Fault Refusal
  | 0, s => .next s
  | n + 1, s =>
    if s.isRunning then
      match step s with
      | .next t => runFor n t
      | .fault r => .fault r
      | .refused r => .refused r
    else .next s

/-- `run` started in `s` returns, and leaves `t` (R59, R103). A run that never leaves Running returns nowhere. -/
def RunReturns (s t : State) : Prop := ∃ n, runFor n s = .next t ∧ t.isRunning = false

/-- One host operation of a created core (R13's table). A `run` that returns is the steps it performs (log 15). -/
inductive HostOp where
  | reset
  | load (bytes : List Byte)
  | step
deriving DecidableEq, Repr

/-- The state an outcome leaves in a core that was in `s`: `s` itself where the operation was refused (R88). -/
def afterwards (s : State) : Host.Outcome State Fault Refusal → State
  | .next t => t
  | .fault _ => s
  | .refused _ => s

/-- The state after one host operation. -/
def perform (op : HostOp) (s : State) : State :=
  match op with
  | .reset => resetOp s
  | .load bytes => afterwards s (load bytes s)
  | .step => afterwards s (step s)

/-- The state after a history of host operations, first to last (R38). -/
def performAll : List HostOp → State → State
  | [], s => s
  | op :: ops, s => performAll ops (perform op s)

end Sys2Proof.Machine
end

