-- ==== Sys2Proof/WellFormed.lean ====
section
/-! DEFINITION. Well-formed instructions. The encoding reserves nothing (R51), so the one check the spec has on an
instruction's operands is that of R47 and R84: under `REG_INDEX_MODE = fault` a register-index operand byte of 8 or
more is illegal; under `mask` every byte is legal. -/

namespace Sys2Proof

/-- RegIndex returns an index for the operand byte `r`, and raises nothing (R47). -/
def regOperandAccepted (mode : RegIndexMode) (r : Byte) : Bool :=
  match mode with
  | .mask => true
  | .fault => decide (r.toNat < 8)

/-- Every register-index operand of the instruction is accepted, so that it raises no IllegalRegister (R84). -/
def Instr.wellFormed (mode : RegIndexMode) (i : Instr) : Bool :=
  i.regOperands.all (regOperandAccepted mode)

end Sys2Proof
end

