-- ==== Sys2Proof/Safety.lean ====
section
/-! DEFINITION. What claims about the core are stated in: the invariant of its states, what an instruction leaves
unchanged, and a run's normal end. -/

namespace Sys2Proof.Machine

/-! ### The invariant -/

/-- The values FL can hold: 0b000, 0b001, 0b010, 0b100 (R21). -/
def legalFlags (fl : FlagBits) : Bool :=
  fl == 0b000 || fl == 0b001 || fl == 0b010 || fl == 0b100

/-- The fault fields say what R80 to R85 let them say: their reset values while no fault is recorded; else a cause the
configuration enables, with the payload R80 gives it. ProgramTooLarge is never stored (R80). -/
def FaultRecordOk (s : State) : Prop :=
  match s.faultCause with
  | .none => s.faulted = false ∧ s.faultPc = 0x00 ∧ s.faultInfo = 0x00
  | .unknownOpcode =>
    s.faulted = true ∧ s.config.unknownOpcodePolicy = .fault ∧ s.faultInfo ∉ opcodeTable
  | .illegalRegister =>
    s.faulted = true ∧ s.config.regIndexMode = .fault ∧ 8 ≤ s.faultInfo.toNat
  | .stackOverflow =>
    s.faulted = true ∧ s.config.stackCheck = .on ∧ s.faultInfo = 0x00 ∧ s.sp = 0x00
  | .stackUnderflow =>
    s.faulted = true ∧ s.config.stackCheck = .on ∧ s.faultInfo = 0xFF ∧ s.sp = 0xFF
  | .programTooLarge => False

/-- The invariant of every state the core can be in. -/
structure CoreInv (s : State) : Prop where
  /-- Memory has its canonical form. -/
  mem_wf : Memory.wf s.mem = true
  /-- At most one comparison bit is set (R21). -/
  flags_legal : legalFlags s.fl = true
  /-- Halted and Faulted are never both set (R22). -/
  not_both : ¬ (s.halted = true ∧ s.faulted = true)
  /-- The fault fields are consistent (R23, R80). -/
  fault_record : FaultRecordOk s
  /-- A Faulted core still has pc at the faulting instruction (R85). -/
  fault_pc : s.faulted = true → s.faultPc = s.pc

/-! ### Frames -/

/-- From `s` to `t` every register outside `rs`, every memory cell outside `cells`, the fault fields and the
configuration are unchanged. FL, `halted`, the trace and pc are spoken of beside it. -/
structure Unchanged (rs : List Reg) (cells : List Byte) (s t : State) : Prop where
  regs       : ∀ r, r ∉ rs → t.reg r = s.reg r
  mem        : ∀ addr, addr ∉ cells → t.memRead addr = s.memRead addr
  faulted    : t.faulted = s.faulted
  faultCause : t.faultCause = s.faultCause
  faultPc    : t.faultPc = s.faultPc
  faultInfo  : t.faultInfo = s.faultInfo
  config     : t.config = s.config

/-! ### Traps -/

/-- Under `REG_INDEX_MODE = fault`, instruction `i` raises IllegalRegister with its first register-index operand of 8 or
more (R84, R87). -/
def IllegalRegisterRaised (i : Instr) (s : State) : Prop :=
  ∀ r, s.config.regIndexMode = .fault →
    i.regOperands.find? (fun q => decide (8 ≤ q.toNat)) = some r →
    exec i s = .next (raise .illegalRegister r s)

/-! ### The end of a run -/

/-- The normal end: Halted, no fault recorded (R103). A Faulted end is none. -/
def State.finishedNormally (s : State) : Bool := s.halted && !s.faulted

end Sys2Proof.Machine
end

