-- ==== Sys2Proof/Certificates/Slice0/Obligations.lean ====
section
/-! DEFINITION. The statements for the provers. Each docstring names the rule of `spec/` it comes from; D<n> is a
decision of `92_eei_decisions.md`, which the spec marks as its own choice. -/

open Sys2Proof Sys2Proof.Machine

/-! ### Encoding -/

/-- R49, whole: each of the 13 rows with its operands, length, bit 5 and bit 4, and no other opcode byte decodes.
The rows' operands take every value. -/
def Obligations.OpcodeMapIsTheFixedTable : Prop :=
  ∀ a b : Byte,
    (∀ row ∈ ([ (0x01, .hlt, 1, false, false), (0x82, .ldi a b, 3, false, false), (0x47, .prn a, 2, false, false),
                (0x45, .push a, 2, false, false), (0x46, .pop a, 2, false, false), (0x50, .call a, 2, false, true),
                (0x11, .ret, 1, false, true), (0x54, .jmp a, 2, false, true), (0x55, .jeq a, 2, false, true),
                (0x56, .jne a, 2, false, true), (0xA0, .add a b, 3, true, false), (0xA2, .mul a b, 3, true, false),
                (0xA7, .cmp a b, 3, true, false) ] : List (Byte × Instr × Nat × Bool × Bool)),
        decode row.1 a b = .ok row.2.1 ∧ instrLength row.1 = row.2.2.1 ∧
        opcodeIsAlu row.1 = row.2.2.2.1 ∧ opcodeSetsPc row.1 = row.2.2.2.2) ∧
    (∀ op : Byte,
        op ∉ ([0x01, 0x82, 0x47, 0x45, 0x46, 0x50, 0x11, 0x54, 0x55, 0x56, 0xA0, 0xA2, 0xA7] : List Byte) →
        decode op a b = .error (.unknownOpcode op))

/-- R50's count: the decoder refuses 243 opcode bytes, each by name, whatever the lookahead bytes. -/
def Obligations.UnknownOpcodesAre243 : Prop :=
  ∀ a b : Byte, ((List.range 256).filter fun n =>
    decide (decode (BitVec.ofNat 8 n) a b = .error (.unknownOpcode (BitVec.ofNat 8 n)))).length = 243

/-- R45, whole: the length of every opcode byte, known or not, by its bits 7 and 6 (here as ranges). -/
def Obligations.LengthFollowsBitsSevenAndSix : Prop :=
  ∀ op : Byte,
    (128 ≤ op.toNat → instrLength op = 3) ∧
    (64 ≤ op.toNat → op.toNat < 128 → instrLength op = 2) ∧
    (op.toNat < 64 → instrLength op = 1)

/-- R43, R49: decoding the encoding of ANY instruction, whatever bytes follow, gives it back and leaves those bytes. -/
def Obligations.DecodeOfEncodeIsTheInstruction : Prop :=
  ∀ (i : Instr) (rest : List Byte), decodeBytes (encode i ++ rest) = .ok (i, rest)

/-- R43, R45, R49: whatever bytes decode, they are the encoding of what they decode to, and the rest follows it. -/
def Obligations.EncodeOfDecodeIsTheBytes : Prop :=
  ∀ (bytes : List Byte) (i : Instr) (rest : List Byte),
    decodeBytes bytes = .ok (i, rest) → bytes = encode i ++ rest

/-- Words written out in `95_test_vectors.md` decode to the instructions they stand for. -/
def Obligations.VectorWordsDecode : Prop :=
  decodeBytes [0x82, 0x00, 0x08, 0x47, 0x00, 0x01] = .ok (.ldi 0 8, [0x47, 0x00, 0x01]) ∧
  decodeBytes [0x47, 0x00, 0x01] = .ok (.prn 0, [0x01]) ∧
  decodeBytes [0x01] = .ok (.hlt, []) ∧
  decodeBytes [0x45, 0x07] = .ok (.push 7, []) ∧
  decodeBytes [0x50, 0x01] = .ok (.call 1, []) ∧
  decodeBytes [0xA7, 0x00, 0x02] = .ok (.cmp 0 2, []) ∧
  decodeBytes [0xA1, 0x05, 0x06] = .error (.unknownOpcode 0xA1)

/-- R73, whole: an opcode byte with bit 5 set is dispatched through the map 0xA0 ADD, 0xA2 MUL, 0xA7 CMP, and one that is
not in the map is unknown. -/
def Obligations.AluOpcodesAreAddMulCmp : Prop :=
  ∀ op a b : Byte, op.getLsbD 5 = true →
    (op = 0xA0 ∧ decode op a b = .ok (.add a b)) ∨ (op = 0xA2 ∧ decode op a b = .ok (.mul a b)) ∨
    (op = 0xA7 ∧ decode op a b = .ok (.cmp a b)) ∨
    (op ∉ ([0xA0, 0xA2, 0xA7] : List Byte) ∧ decode op a b = .error (.unknownOpcode op))

/-! ### The step -/

/-- R55, R56: in a Running core, when the three bytes at pc, pc+1 and pc+2 (addresses modulo 256: D2, log 4) decode to an
instruction, the step is that instruction's rule and nothing around it. -/
def Obligations.StepRunsTheDecodedInstruction : Prop :=
  ∀ (s : State) (i : Instr), s.halted = false → s.faulted = false →
    decode (s.memRead s.pc) (s.memRead (s.pc + 1)) (s.memRead (s.pc + 2)) = .ok i → step s = exec i s

/-- R43, R55, R56: the same from the encoding alone. When the cells from pc on (addresses modulo 256: D2, log 4) hold the
bytes of `i`, the step runs `i`; the lookahead bytes beyond the instruction have no effect. -/
def Obligations.StepRunsTheEncodedInstruction : Prop :=
  ∀ (s : State) (i : Instr), s.halted = false → s.faulted = false →
    (∀ (k : Nat) (v : Byte), (encode i)[k]? = some v → s.memRead (s.pc + BitVec.ofNat 8 k) = v) →
    step s = exec i s

/-- R54 (the spec's own decision D8, log 3): outside Running a step changes no state and emits no event. -/
def Obligations.StepOutsideRunningDoesNothing : Prop :=
  ∀ s : State, (s.halted = true ∨ s.faulted = true) → step s = .next s

/-- No step of the core stops the model: every state, every byte and every configuration has a next state. It rests on the
spec's own decisions: outside Running a step does nothing (R54, D8, log 3), a raised condition enters the Faulted state
as a next state (R79, R85, D14, log 2), and every address wraps (R28, D2, log 4). -/
def Obligations.EveryStepHasANextState : Prop :=
  ∀ s : State, ∃ t, step s = .next t

/-- R81 (the policy switch is the spec's own decision D4, the advance whatever bit 4 is its own decision D7; log 6): an
unknown opcode under `skip` emits Diag(op, pc) and moves pc by Length(op), whatever its bit 4 is, and changes nothing
else. -/
def Obligations.UnknownOpcodeIsSkipped : Prop :=
  ∀ s : State, s.halted = false → s.faulted = false → s.config.unknownOpcodePolicy = .skip →
    s.memRead s.pc ∉ opcodeTable →
    ∃ t, step s = .next t ∧
      t.trace = s.trace ++ [Event.diag (s.memRead s.pc) s.pc] ∧
      t.pc.toNat = (s.pc.toNat + instrLength (s.memRead s.pc)) % 256 ∧
      t.fl = s.fl ∧ t.halted = false ∧ Unchanged [] [] s t

/-- R82 (the spec's own decision D4, log 6): under `fault` an unknown opcode records the opcode and its address in the
fault fields, emits no event and changes nothing else. -/
def Obligations.UnknownOpcodeFaults : Prop :=
  ∀ s : State, s.halted = false → s.faulted = false → s.config.unknownOpcodePolicy = .fault →
    s.memRead s.pc ∉ opcodeTable →
    step s = .next { s with
      faulted := true, faultCause := .unknownOpcode, faultPc := s.pc, faultInfo := s.memRead s.pc }

/-- R57 (for unknown opcodes with bit 4 set, the spec's own decision D7, log 6): after a step that runs without a fault, pc
has moved by Length(op), unless op is in the table and has bit 4 set; after one that raises a fault it has not moved. -/
def Obligations.GenericAdvanceRule : Prop :=
  ∀ s t : State, s.halted = false → s.faulted = false → step s = .next t →
    (t.faulted = false → ¬ (s.memRead s.pc ∈ opcodeTable ∧ opcodeSetsPc (s.memRead s.pc) = true) →
      t.pc.toNat = (s.pc.toNat + instrLength (s.memRead s.pc)) % 256) ∧
    (t.faulted = true → t.pc = s.pc)

/-! ### Operands -/

/-- R47 (operand bytes of 8 or more: the spec's own decision D6, log 5): RegIndex takes the low three bits under `mask`;
under `fault` it takes the byte itself below 8 and raises IllegalRegister from 8 on. -/
def Obligations.RegIndexDecodesTheOperandByte : Prop :=
  ∀ (r : Byte) (s : State) (k : Reg → State),
    (s.config.regIndexMode = .mask → ∀ q : Reg, q.val = r.toNat % 8 → withReg r s k = k q) ∧
    (s.config.regIndexMode = .fault → ∀ q : Reg, q.val = r.toNat → withReg r s k = k q) ∧
    (s.config.regIndexMode = .fault → 8 ≤ r.toNat → withReg r s k = raise .illegalRegister r s)

/-! ### HLT, LDI, PRN -/

/-- R60, whole: HLT sets `halted` and moves pc by 1, and nothing else changes; further steps do nothing; only reset leaves
Halted; and HLT is the only instruction that leaves Running (in the default configuration, the only one R60 speaks of;
in any, the only one that sets `halted`). -/
def Obligations.HltHaltsAndAdvances : Prop :=
  (∀ s : State, ∃ t, exec .hlt s = .next t ∧ t.halted = true ∧
      t.pc.toNat = (s.pc.toNat + 1) % 256 ∧ t.fl = s.fl ∧ t.trace = s.trace ∧ Unchanged [] [] s t) ∧
  (∀ s : State, s.halted = true → step s = .next s) ∧
  (∀ (s : State) (op : HostOp), s.halted = true → op ≠ .reset → (perform op s).halted = true) ∧
  (∀ s : State, (perform .reset s).halted = false) ∧
  (∀ (i : Instr) (s t : State), i ≠ .hlt → exec i s = .next t → t.halted = s.halted ∧
      (s.config = Config.default → s.isRunning = true → t.isRunning = true))

/-- R61, whole: LDI writes the immediate to the register, moves pc by 3 and changes nothing else; a register operand
is read through RegIndex (see RegIndexDecodesTheOperandByte), and where RegIndex raises, so does LDI. -/
def Obligations.LdiLoadsTheImmediate : Prop :=
  ∀ (a imm : Byte) (s : State),
    ((Instr.ldi a imm).wellFormed s.config.regIndexMode = true →
      ∃ t, exec (.ldi a imm) s = .next t ∧ t.reg (regOf a) = imm ∧
        t.pc.toNat = (s.pc.toNat + 3) % 256 ∧ t.fl = s.fl ∧ t.halted = s.halted ∧ t.trace = s.trace ∧
        Unchanged [regOf a] [] s t) ∧
    IllegalRegisterRaised (.ldi a imm) s

/-- R62 (the output port as an event trace is the spec's own decision D11, log 10): PRN appends Out(x[a]) to the trace,
moves pc by 2 and changes nothing else; an operand of 8 or more as in R47 (D6, log 5). -/
def Obligations.PrnEmitsTheRegister : Prop :=
  ∀ (a : Byte) (s : State),
    ((Instr.prn a).wellFormed s.config.regIndexMode = true →
      ∃ t, exec (.prn a) s = .next t ∧ t.trace = s.trace ++ [Event.out (s.reg (regOf a))] ∧
        t.pc.toNat = (s.pc.toNat + 2) % 256 ∧ t.fl = s.fl ∧ t.halted = s.halted ∧
        Unchanged [] [] s t) ∧
    IllegalRegisterRaised (.prn a) s

/-! ### The stack -/

/-- R65 (PUSH R7 is the spec's own decision D17, log 7; the stack check D5, log 8): where no check stops it, PUSH
decrements SP and stores at the new SP the register (for R7 the decremented SP), moves pc by 2, and changes nothing
else; with the check on and SP = 0x00 it raises StackOverflow; an illegal operand is reported first (D15, log 11). -/
def Obligations.PushStoresBelowTheStackPointer : Prop :=
  ∀ (a : Byte) (s : State),
    ((Instr.push a).wellFormed s.config.regIndexMode = true → ¬ (s.config.stackCheck = .on ∧ s.sp = 0x00) →
      ∃ t, exec (.push a) s = .next t ∧ t.sp = s.sp - 1 ∧
        t.memRead (s.sp - 1) = (if regOf a = spIndex then s.sp - 1 else s.reg (regOf a)) ∧
        t.pc.toNat = (s.pc.toNat + 2) % 256 ∧ t.fl = s.fl ∧ t.halted = s.halted ∧ t.trace = s.trace ∧
        Unchanged [spIndex] [s.sp - 1] s t) ∧
    ((Instr.push a).wellFormed s.config.regIndexMode = true → s.config.stackCheck = .on → s.sp = 0x00 →
      exec (.push a) s = .next (raise .stackOverflow 0x00 s)) ∧
    IllegalRegisterRaised (.push a) s

/-- R66 (POP R7 is the spec's own decision D17, log 7; the stack check D5, log 8): where no check stops it, POP writes
M[SP] to the register and then increments SP (for R7 the value just written), moves pc by 2, keeps all of memory, and
changes nothing else; with the check on and SP = 0xFF it raises StackUnderflow. -/
def Obligations.PopLoadsFromTheStackPointer : Prop :=
  ∀ (a : Byte) (s : State),
    ((Instr.pop a).wellFormed s.config.regIndexMode = true → ¬ (s.config.stackCheck = .on ∧ s.sp = 0xFF) →
      ∃ t, exec (.pop a) s = .next t ∧
        (regOf a ≠ spIndex → t.reg (regOf a) = s.memRead s.sp ∧ t.sp = s.sp + 1) ∧
        (regOf a = spIndex → t.sp = s.memRead s.sp + 1) ∧
        t.pc.toNat = (s.pc.toNat + 2) % 256 ∧ t.fl = s.fl ∧ t.halted = s.halted ∧ t.trace = s.trace ∧
        Unchanged [regOf a, spIndex] [] s t) ∧
    ((Instr.pop a).wellFormed s.config.regIndexMode = true → s.config.stackCheck = .on → s.sp = 0xFF →
      exec (.pop a) s = .next (raise .stackUnderflow 0xFF s)) ∧
    IllegalRegisterRaised (.pop a) s

/-- The property stated after R66 (for R7, under D17, log 7): PUSH of a register and POP of the same register, with no
check that stops them, leave that register and SP as they were. -/
def Obligations.PushThenPopRestores : Prop :=
  ∀ (a : Byte) (s : State), (Instr.push a).wellFormed s.config.regIndexMode = true →
    ¬ (s.config.stackCheck = .on ∧ s.sp = 0x00) →
    ∃ t u, exec (.push a) s = .next t ∧ exec (.pop a) t = .next u ∧
      u.reg (regOf a) = s.reg (regOf a) ∧ u.sp = s.sp ∧ u.pc.toNat = (s.pc.toNat + 4) % 256

/-! ### Control transfer -/

/-- R67 (CALL R7 is the spec's own decision D17, log 7; the stack check D5, log 8): where no check stops it, CALL stores
pc + 2 below SP, decrements SP, and goes to the register's value (for R7 the decremented SP); nothing else changes. -/
def Obligations.CallPushesTheReturnAddress : Prop :=
  ∀ (a : Byte) (s : State),
    ((Instr.call a).wellFormed s.config.regIndexMode = true → ¬ (s.config.stackCheck = .on ∧ s.sp = 0x00) →
      ∃ t, exec (.call a) s = .next t ∧ t.sp = s.sp - 1 ∧
        (t.memRead (s.sp - 1)).toNat = (s.pc.toNat + 2) % 256 ∧
        t.pc = (if regOf a = spIndex then s.sp - 1 else s.reg (regOf a)) ∧
        t.fl = s.fl ∧ t.halted = s.halted ∧ t.trace = s.trace ∧
        Unchanged [spIndex] [s.sp - 1] s t) ∧
    ((Instr.call a).wellFormed s.config.regIndexMode = true → s.config.stackCheck = .on → s.sp = 0x00 →
      exec (.call a) s = .next (raise .stackOverflow 0x00 s)) ∧
    IllegalRegisterRaised (.call a) s

/-- R68: RET goes to M[SP] and increments SP, touches no other register and no cell; with the stack check on (D5, log 8)
and SP = 0xFF it raises StackUnderflow. -/
def Obligations.RetPopsIntoThePc : Prop :=
  ∀ s : State,
    (¬ (s.config.stackCheck = .on ∧ s.sp = 0xFF) →
      ∃ t, exec .ret s = .next t ∧ t.pc = s.memRead s.sp ∧ t.sp.toNat = (s.sp.toNat + 1) % 256 ∧
        t.fl = s.fl ∧ t.halted = s.halted ∧ t.trace = s.trace ∧ Unchanged [spIndex] [] s t) ∧
    (s.config.stackCheck = .on → s.sp = 0xFF → exec .ret s = .next (raise .stackUnderflow 0xFF s))

/-- R67, R68, C2: a RET in any later state that has SP and the cell at SP as the CALL left them resumes right after the
CALL, at pc_call + 2, with SP as before the CALL. With the stack check on, the CALL itself raised nothing (D5, log 8). -/
def Obligations.CallThenRetResumesAfterTheCall : Prop :=
  ∀ (a : Byte) (s t u : State), (Instr.call a).wellFormed s.config.regIndexMode = true →
    ¬ (s.config.stackCheck = .on ∧ s.sp = 0x00) → exec (.call a) s = .next t →
    u.config = t.config → u.sp = t.sp → u.memRead t.sp = t.memRead t.sp →
    ∃ v, exec .ret u = .next v ∧ v.pc.toNat = (s.pc.toNat + 2) % 256 ∧ v.sp = s.sp

/-- R69, whole: JMP sets pc to the register's value and changes nothing else; the operand is read
through RegIndex (see RegIndexDecodesTheOperandByte), and where RegIndex raises, so does JMP. -/
def Obligations.JmpGoesToTheRegister : Prop :=
  ∀ (a : Byte) (s : State),
    ((Instr.jmp a).wellFormed s.config.regIndexMode = true →
      ∃ t, exec (.jmp a) s = .next t ∧ t.pc = s.reg (regOf a) ∧
        t.fl = s.fl ∧ t.halted = s.halted ∧ t.trace = s.trace ∧ Unchanged [] [] s t) ∧
    IllegalRegisterRaised (.jmp a) s

/-- R70, whole: JEQ sets pc to the register's value when E (bit 0 of FL) is 1, to pc + 2 when it is 0, and changes nothing
else; its operand is read through RegIndex (see RegIndexDecodesTheOperandByte) on both paths. -/
def Obligations.JeqJumpsIffEqual : Prop :=
  ∀ (a : Byte) (s : State),
    ((Instr.jeq a).wellFormed s.config.regIndexMode = true →
      ∃ t, exec (.jeq a) s = .next t ∧
        (s.fl.getLsbD 0 = true → t.pc = s.reg (regOf a)) ∧
        (s.fl.getLsbD 0 = false → t.pc.toNat = (s.pc.toNat + 2) % 256) ∧
        t.fl = s.fl ∧ t.halted = s.halted ∧ t.trace = s.trace ∧ Unchanged [] [] s t) ∧
    IllegalRegisterRaised (.jeq a) s

/-- R71, whole: JNE sets pc to the register's value when E (bit 0 of FL) is 0, to pc + 2 when it is 1, and changes nothing
else; its operand is read through RegIndex (see RegIndexDecodesTheOperandByte) on both paths. -/
def Obligations.JneJumpsIffNotEqual : Prop :=
  ∀ (a : Byte) (s : State),
    ((Instr.jne a).wellFormed s.config.regIndexMode = true →
      ∃ t, exec (.jne a) s = .next t ∧
        (s.fl.getLsbD 0 = false → t.pc = s.reg (regOf a)) ∧
        (s.fl.getLsbD 0 = true → t.pc.toNat = (s.pc.toNat + 2) % 256) ∧
        t.fl = s.fl ∧ t.halted = s.halted ∧ t.trace = s.trace ∧ Unchanged [] [] s t) ∧
    IllegalRegisterRaised (.jne a) s

/-! ### The ALU -/

/-- R74, whole: ADD writes the sum modulo 256 of both registers to the first, moves pc by 3 and changes nothing else, FL
included; the operands are read through RegIndex (see RegIndexDecodesTheOperandByte), a before b, and where it raises,
so does ADD. -/
def Obligations.AddStoresTheSumModulo256 : Prop :=
  ∀ (a b : Byte) (s : State),
    ((Instr.add a b).wellFormed s.config.regIndexMode = true →
      ∃ t, exec (.add a b) s = .next t ∧
        (t.reg (regOf a)).toNat = ((s.reg (regOf a)).toNat + (s.reg (regOf b)).toNat) % 256 ∧
        t.pc.toNat = (s.pc.toNat + 3) % 256 ∧ t.fl = s.fl ∧ t.halted = s.halted ∧ t.trace = s.trace ∧
        Unchanged [regOf a] [] s t) ∧
    IllegalRegisterRaised (.add a b) s

/-- R75, whole: MUL writes the product modulo 256 of both registers to the first, moves pc by 3 and changes nothing else, FL
included; the operands are read as in ADD. -/
def Obligations.MulStoresTheProductModulo256 : Prop :=
  ∀ (a b : Byte) (s : State),
    ((Instr.mul a b).wellFormed s.config.regIndexMode = true →
      ∃ t, exec (.mul a b) s = .next t ∧
        (t.reg (regOf a)).toNat = ((s.reg (regOf a)).toNat * (s.reg (regOf b)).toNat) % 256 ∧
        t.pc.toNat = (s.pc.toNat + 3) % 256 ∧ t.fl = s.fl ∧ t.halted = s.halted ∧ t.trace = s.trace ∧
        Unchanged [regOf a] [] s t) ∧
    IllegalRegisterRaised (.mul a b) s

/-- R76, whole: CMP sets FL to 0b100, 0b010 or 0b001 as the first register is below, above or equal to the second,
unsigned, moves pc by 3 and changes nothing else; the operands are read as in ADD. -/
def Obligations.CmpSetsExactlyOneFlag : Prop :=
  ∀ (a b : Byte) (s : State),
    ((Instr.cmp a b).wellFormed s.config.regIndexMode = true →
      ∃ t, exec (.cmp a b) s = .next t ∧
        ((s.reg (regOf a)).toNat < (s.reg (regOf b)).toNat → t.fl = 0b100) ∧
        ((s.reg (regOf b)).toNat < (s.reg (regOf a)).toNat → t.fl = 0b010) ∧
        ((s.reg (regOf a)).toNat = (s.reg (regOf b)).toNat → t.fl = 0b001) ∧
        t.pc.toNat = (s.pc.toNat + 3) % 256 ∧ t.halted = s.halted ∧ t.trace = s.trace ∧
        Unchanged [] [] s t) ∧
    IllegalRegisterRaised (.cmp a b) s

/-- R70, R71, R76 (the source's S4): after CMP, JEQ takes its jump exactly when the two registers held the same value, and
JNE exactly when they did not; the path not taken leads to the instruction after the jump. -/
def Obligations.CompareDecidesTheJump : Prop :=
  ∀ (a b c : Byte) (s t : State), (Instr.cmp a b).wellFormed s.config.regIndexMode = true →
    (Instr.jeq c).wellFormed s.config.regIndexMode = true → exec (.cmp a b) s = .next t →
    ∃ u v, exec (.jeq c) t = .next u ∧ exec (.jne c) t = .next v ∧
      u.pc = (if s.reg (regOf a) = s.reg (regOf b) then s.reg (regOf c) else s.pc + 5) ∧
      v.pc = (if s.reg (regOf a) = s.reg (regOf b) then s.pc + 5 else s.reg (regOf c))

/-! ### Rules of the whole machine -/

/-- R20, whole: a step that fetches no CMP leaves FL alone; reset makes it 0b000; a load leaves it alone; a step reads FL
only in JEQ and JNE, and there only bit E: replacing FL by another value with the same E (by any value, when the
instruction is neither JEQ nor JNE) changes nothing of the step's result but FL itself, and not even FL where a CMP
writes it (a CMP that raises IllegalRegister writes nothing). -/
def Obligations.FlagsAreWrittenByCmpAndReadByJumps : Prop :=
  (∀ s t : State, step s = .next t → s.memRead s.pc ≠ 0xA7 → t.fl = s.fl) ∧
  (∀ s : State, (perform .reset s).fl = 0b000) ∧
  (∀ (s : State) (bytes : List Byte), (perform (.load bytes) s).fl = s.fl) ∧
  (∀ (s t : State) (fl' : FlagBits), step s = .next t →
    (fl'.getLsbD 0 = s.fl.getLsbD 0 ∨ (s.memRead s.pc ≠ 0x55 ∧ s.memRead s.pc ≠ 0x56)) →
    ∃ t', step { s with fl := fl' } = .next t' ∧ { t' with fl := t.fl } = t ∧
      (s.isRunning = true → s.memRead s.pc = 0xA7 → t.faulted = false → t'.fl = t.fl))

/-- R31 (derived in the spec from R65 to R68): a step changes a memory cell only when it is PUSH or CALL, and then only
the cell at SP - 1, SP taken before the step. -/
def Obligations.OnlyPushAndCallStore : Prop :=
  ∀ (s t : State) (addr : Byte), step s = .next t → t.memRead addr ≠ s.memRead addr →
    (s.memRead s.pc = 0x45 ∨ s.memRead s.pc = 0x50) ∧ addr = s.sp - 1

/-- R15's table: a step changes a register only as the operand a of LDI, POP, ADD or MUL, or as SP in PUSH, POP, CALL or
RET. -/
def Obligations.RegisterWritersAreTheTables : Prop :=
  ∀ (s t : State) (r : Reg), step s = .next t → t.reg r ≠ s.reg r →
    (s.memRead s.pc ∈ ([0x82, 0x46, 0xA0, 0xA2] : List Byte) ∧ r = regOf (s.memRead (s.pc + 1))) ∨
    (s.memRead s.pc ∈ ([0x45, 0x46, 0x50, 0x11] : List Byte) ∧ r = spIndex)

/-- R85 (the spec's own decision D14, log 2): faults are precise. A step that ends Faulted changes nothing but the four fault
fields: no register, memory cell, flag, pc or event; `fault_pc` is the opcode's address. -/
def Obligations.FaultsArePrecise : Prop :=
  ∀ s t : State, s.halted = false → s.faulted = false → step s = .next t → t.faulted = true →
    t.faultPc = s.pc ∧ t.faultCause ≠ .none ∧ t.faultCause ≠ .programTooLarge ∧
    t = { s with faulted := true, faultCause := t.faultCause, faultPc := s.pc, faultInfo := t.faultInfo }

/-- R87 (the spec's own decision D15, log 11): of the conditions of one step the first is reported, in the order unknown
opcode, illegal operand a, illegal operand b, stack check. -/
def Obligations.FirstConditionIsReported : Prop :=
  ∀ s : State, s.halted = false → s.faulted = false → s.config = ⟨.fault, .on, .fault⟩ →
    let op := s.memRead s.pc
    let a := s.memRead (s.pc + 1)
    let b := s.memRead (s.pc + 2)
    (op ∉ opcodeTable → step s = .next (raise .unknownOpcode op s)) ∧
    (op ∈ opcodeTable → op ≠ 0x01 → op ≠ 0x11 → 8 ≤ a.toNat → step s = .next (raise .illegalRegister a s)) ∧
    (op ∈ ([0xA0, 0xA2, 0xA7] : List Byte) → a.toNat < 8 → 8 ≤ b.toNat →
      step s = .next (raise .illegalRegister b s)) ∧
    (op ∈ ([0x45, 0x50] : List Byte) → a.toNat < 8 → s.sp = 0x00 → step s = .next (raise .stackOverflow 0x00 s)) ∧
    (op = 0x46 → a.toNat < 8 → s.sp = 0xFF → step s = .next (raise .stackUnderflow 0xFF s)) ∧
    (op = 0x11 → s.sp = 0xFF → step s = .next (raise .stackUnderflow 0xFF s))

/-- R23, R80 (the fault state is the spec's own decision D14, log 2; that the default configuration raises nothing rests on
its defaults `skip`, `off` and `mask`, D4, D5 and D6, logs 6, 8 and 5): in the default configuration no host operation ever
makes the core Faulted, whatever bytes it runs. -/
def Obligations.DefaultConfigurationNeverFaults : Prop :=
  ∀ (ops : List HostOp) (s : State), s.config = Config.default → s.faulted = false →
    (performAll ops s).faulted = false

/-- R25 (the spec's own decision D12, log 10): a step appends at most one event and takes none back: Out(x[a]) only when it
fetched PRN, Diag(op, pc) only when it fetched an unknown opcode. -/
def Obligations.AtMostOneEventAStep : Prop :=
  ∀ s t : State, step s = .next t →
    t.trace = s.trace ∨
    (s.memRead s.pc = 0x47 ∧ t.trace = s.trace ++ [Event.out (s.reg (regOf (s.memRead (s.pc + 1))))]) ∨
    (s.memRead s.pc ∉ opcodeTable ∧ t.trace = s.trace ++ [Event.diag (s.memRead s.pc) s.pc])

/-- R22, whole: Running is neither bit set; HLT sets `halted`, and only reset clears it; Halted and Faulted are never both
set, from any state where they are not; and only a Running core executes: outside it a step is none. -/
def Obligations.RunStatesAreExclusive : Prop :=
  (∀ s : State, (s.isRunning = true ↔ s.halted = false ∧ s.faulted = false) ∧
    (s.status = .running ↔ s.isRunning = true)) ∧
  (∀ s : State, ∃ t, exec .hlt s = .next t ∧ t.halted = true) ∧
  (∀ (s : State) (op : HostOp), s.halted = true → (perform op s).halted = false → op = .reset) ∧
  (∀ (s : State) (op : HostOp), ¬ (s.halted = true ∧ s.faulted = true) →
    ¬ ((perform op s).halted = true ∧ (perform op s).faulted = true)) ∧
  (∀ s : State, s.isRunning = false → perform .step s = s)

/-- R86 (the spec's own decision D14, log 2): a Faulted core stays Faulted, with the same record, under every host operation
but reset, which makes it Running again. -/
def Obligations.OnlyResetLeavesFaulted : Prop :=
  ∀ (s : State) (op : HostOp), s.faulted = true →
    (op ≠ .reset → (perform op s).faulted = true ∧ (perform op s).faultCause = s.faultCause ∧
      (perform op s).faultPc = s.faultPc ∧ (perform op s).faultInfo = s.faultInfo) ∧
    (op = .reset → (perform op s).isRunning = true)

/-- R41 (the spec's own decision D16, log 19): a byte that PUSH stores over the very next opcode is the one the next step
fetches, and a byte it stores over its own operand does not change the PUSH. -/
def Obligations.StoresAreSeenByTheNextFetch : Prop :=
  ∀ (a : Byte) (s : State), s.halted = false → s.faulted = false →
    s.memRead s.pc = 0x45 → s.memRead (s.pc + 1) = a →
    (Instr.push a).wellFormed s.config.regIndexMode = true → ¬ (s.config.stackCheck = .on ∧ s.sp = 0x00) →
    regOf a ≠ spIndex →
    ∃ t, step s = .next t ∧ t.memRead (s.sp - 1) = s.reg (regOf a) ∧ t.pc = s.pc + 2 ∧
      (s.sp - 1 = s.pc + 2 → ∀ i, decode (s.reg (regOf a)) (t.memRead (s.pc + 3)) (t.memRead (s.pc + 4)) = .ok i →
        step t = exec i t)

/-- R7, R19 (the spec's own decision D18, log 14): FL read as a byte has E, G and L in bits 0, 1 and 2 and zeros above. -/
def Obligations.FlagByteHasThreeBits : Prop :=
  ∀ fl : FlagBits, (flByte fl).getLsbD 0 = flE fl ∧ (flByte fl).getLsbD 1 = flG fl ∧
    (flByte fl).getLsbD 2 = flL fl ∧ (flByte fl).toNat < 8

/-- R80's numbering (the spec's own decision D13, log 11). -/
def Obligations.ConditionCodesAreNumbered : Prop :=
  [Condition.none, .unknownOpcode, .illegalRegister, .stackOverflow, .stackUnderflow, .programTooLarge].map
    Condition.code = [0, 1, 2, 3, 4, 5]

/-! ### Host operations -/

/-- R96, whole: reset, from any state, gives every element its value of R26 (the fault fields' zeros are the spec's own
decision D14, log 11), leaves the core Running with pc = 0x00, and keeps the trace and the configuration. -/
def Obligations.ResetGivesEveryResetValue : Prop :=
  ∀ s : State, let t := perform .reset s
    (∀ addr, t.memRead addr = 0x00) ∧ (∀ r : Reg, t.reg r = if r.val = 7 then 0xF4 else 0x00) ∧
    t.pc = 0x00 ∧ t.fl = 0b000 ∧ t.halted = false ∧ t.faulted = false ∧ t.faultCause = .none ∧
    t.faultPc = 0x00 ∧ t.faultInfo = 0x00 ∧ t.isRunning = true ∧ t.trace = s.trace ∧ t.config = s.config

/-- R98, and R37 and R38 for the load (that a load, accepted or refused, keeps pc and the run state rests on the spec's own
decisions D9 and D10, log 9; that a stopped core stays so rests on its D8, D10 and D14, logs 3, 9 and 2): after reset, and
after a load into the reset core, pc is 0x00 and the core is Running, and the first step fetches M[0x00] (and M[0x01],
M[0x02]): it runs the instruction they decode to, or treats M[0x00] as an unknown opcode, as it does 0x00 when nothing was
loaded. Reset is the only operation that leaves Halted or Faulted. -/
def Obligations.ExecutionStartsAtZero : Prop :=
  (∀ s : State, let r := perform .reset s
    r.pc = 0x00 ∧ r.isRunning = true ∧ step r = .next (execUnknown 0x00 r)) ∧
  (∀ (s : State) (bytes : List Byte), let u := perform (.load bytes) (perform .reset s)
    u.pc = 0x00 ∧ u.isRunning = true ∧
    (∀ i : Instr, decode (u.memRead 0x00) (u.memRead 0x01) (u.memRead 0x02) = .ok i → step u = exec i u) ∧
    (u.memRead 0x00 ∉ opcodeTable → step u = .next (execUnknown (u.memRead 0x00) u))) ∧
  (∀ (s : State) (op : HostOp), s.isRunning = false → (perform op s).isRunning = true → op = .reset)

/-- R37, R88 (the spec's own decision D9, log 9): a load of at most 256 bytes writes them from address 0 on, leaves every
other cell and every other element alone; a longer one is answered ProgramTooLarge(n) and changes nothing. -/
def Obligations.LoadWritesExactlyItsBytes : Prop :=
  ∀ (bytes : List Byte) (s : State),
    (bytes.length ≤ 256 →
      ∃ t, load bytes s = .next t ∧ (∀ addr : Byte, t.memRead addr = bytes.getD addr.toNat (s.memRead addr)) ∧
        { t with mem := s.mem } = s) ∧
    (256 < bytes.length → load bytes s = .fault (.programTooLarge bytes.length) ∧ perform (.load bytes) s = s)

/-- R96: no host operation changes a configuration parameter; the core's own steps change none either (log 1). -/
def Obligations.ConfigurationIsFixed : Prop :=
  ∀ (ops : List HostOp) (s : State), (performAll ops s).config = s.config

/-- R59, R103 (the end of a run is the spec's own decision D22, log 16): run is repeated step. It returns at once outside
Running; from a Running state it returns exactly what it returns from the state after one step; what it returns is not
Running, and there is at most one such state. -/
def Obligations.RunIsRepeatedStep : Prop :=
  (∀ s : State, s.isRunning = false → RunReturns s s) ∧
  (∀ s t u : State, s.isRunning = true → step s = .next t → (RunReturns s u ↔ RunReturns t u)) ∧
  (∀ s t u : State, RunReturns s t → RunReturns s u → t = u ∧ t.isRunning = false)

/-! ### Invariants -/

/-- The invariant holds at reset, and in every newly created core whatever its configuration (R26, R97); and creation is a
reset: reset leaves a created core as it is, and creation gives it its configuration and an empty trace. The invariant's
clause on memory is the model's representation (log 17), the fault fields' zeros are the spec's own decision D14 (log 11),
creation as a reset its own D19 (log 21), the configuration in State the model's choice (log 1), and the empty trace the
model's inference (log 10). -/
def Obligations.InvariantHoldsAtReset : Prop :=
  CoreInv State.reset ∧ State.reset = State.created Config.default ∧
  ∀ c : Config, CoreInv (State.created c) ∧ perform .reset (State.created c) = State.created c ∧
    (State.created c).config = c ∧ (State.created c).trace = []

/-- R21, R22, R23, R80, R85: every step, from every state with the invariant (not only reachable ones), keeps it: memory
canonical (the model's representation, log 17), FL one of its four values, Halted and Faulted exclusive, the fault record
consistent with the configuration, pc at the faulting instruction (the conditions and the fault fields are the spec's own
decisions D13 and D14, logs 11 and 2). -/
def Obligations.StepKeepsTheInvariant : Prop :=
  ∀ s t : State, CoreInv s → step s = .next t → CoreInv t

/-- The same for every host operation: each load, accepted or refused, each step and each reset, from every state with the
invariant, keeps it; so it holds after every history of them from such a state, and from the creation of a core in any
configuration (R38, R96, R97). The invariant's clause on memory is the model's representation (log 17), its fault clauses
are the spec's own decisions D13 and D14 (logs 11 and 2), a load in any run state its own D9 and D10 (log 9), creation as a
reset its own D19 (log 21). -/
def Obligations.EveryHistoryKeepsTheInvariant : Prop :=
  (∀ (s : State) (op : HostOp), CoreInv s → CoreInv (perform op s)) ∧
  (∀ (s : State) (ops : List HostOp), CoreInv s → CoreInv (performAll ops s)) ∧
  (∀ (c : Config) (ops : List HostOp), CoreInv (performAll ops (State.created c)))

/-- The canonical form makes memory data: two memories in it that read alike at all 256 addresses are the same list (a
property of the model's representation of R27, log 17). -/
def Obligations.CanonicalMemoriesThatReadAlikeAreEqual : Prop :=
  ∀ m n : Memory, Memory.wf m = true → Memory.wf n = true →
    (∀ addr : Byte, Memory.read m addr.toNat = Memory.read n addr.toNat) → m = n

/-! ### The status output -/

/-- R13, R22, R23 (the `status` output is the spec's own decision D11, log 10; the Faulted state and its cause its own D14,
log 2): status shows Running exactly in Running; and in every state where Halted and Faulted are not both set (by R22 no
run reaches another, see RunStatesAreExclusive and StepKeepsTheInvariant) it shows Halted exactly in Halted, and Faulted
with the recorded cause exactly in Faulted. -/
def Obligations.StatusShowsTheRunState : Prop :=
  ∀ s : State, (s.status = .running ↔ s.halted = false ∧ s.faulted = false) ∧
    (¬ (s.halted = true ∧ s.faulted = true) →
      (s.status = .halted ↔ s.halted = true) ∧
      ∀ c : Condition, s.status = .faulted c ↔ s.faulted = true ∧ s.faultCause = c)
end

