-- ==== Sys2Proof/Laws/State.lean ====
section
/-! SUPPORT. One lemma per field per update of `State`, so that no proof unfolds a record update. `setSp` and `advance`
are rewritten to the updates they are made of. -/

namespace Sys2Proof.Machine

@[simp] theorem State.setSp_eq (s : State) (v : Byte) : s.setSp v = s.setReg spIndex v := rfl
@[simp] theorem State.advance_eq (s : State) (op : Byte) :
    s.advance op = s.setPc (s.pc + BitVec.ofNat 8 (instrLength op)) := rfl
@[simp] theorem State.idle_eq (s : State) : s.idle = s := rfl

section memWrite
variable (s : State) (a v : Byte)
@[simp] theorem State.memWrite_mem : (s.memWrite a v).mem = Memory.write s.mem a.toNat v := rfl
@[simp] theorem State.memWrite_regs : (s.memWrite a v).regs = s.regs := rfl
@[simp] theorem State.memWrite_pc : (s.memWrite a v).pc = s.pc := rfl
@[simp] theorem State.memWrite_fl : (s.memWrite a v).fl = s.fl := rfl
@[simp] theorem State.memWrite_halted : (s.memWrite a v).halted = s.halted := rfl
@[simp] theorem State.memWrite_faulted : (s.memWrite a v).faulted = s.faulted := rfl
@[simp] theorem State.memWrite_faultCause : (s.memWrite a v).faultCause = s.faultCause := rfl
@[simp] theorem State.memWrite_faultPc : (s.memWrite a v).faultPc = s.faultPc := rfl
@[simp] theorem State.memWrite_faultInfo : (s.memWrite a v).faultInfo = s.faultInfo := rfl
@[simp] theorem State.memWrite_trace : (s.memWrite a v).trace = s.trace := rfl
@[simp] theorem State.memWrite_config : (s.memWrite a v).config = s.config := rfl
@[simp] theorem State.memWrite_reg (r : Reg) : (s.memWrite a v).reg r = s.reg r := rfl
@[simp] theorem State.memWrite_sp : (s.memWrite a v).sp = s.sp := rfl
@[simp] theorem State.memWrite_isRunning : (s.memWrite a v).isRunning = s.isRunning := rfl
end memWrite

section setReg
variable (s : State) (r : Reg) (v : Byte)
@[simp] theorem State.setReg_mem : (s.setReg r v).mem = s.mem := rfl
@[simp] theorem State.setReg_regs : (s.setReg r v).regs = s.regs.set r v := rfl
@[simp] theorem State.setReg_pc : (s.setReg r v).pc = s.pc := rfl
@[simp] theorem State.setReg_fl : (s.setReg r v).fl = s.fl := rfl
@[simp] theorem State.setReg_halted : (s.setReg r v).halted = s.halted := rfl
@[simp] theorem State.setReg_faulted : (s.setReg r v).faulted = s.faulted := rfl
@[simp] theorem State.setReg_faultCause : (s.setReg r v).faultCause = s.faultCause := rfl
@[simp] theorem State.setReg_faultPc : (s.setReg r v).faultPc = s.faultPc := rfl
@[simp] theorem State.setReg_faultInfo : (s.setReg r v).faultInfo = s.faultInfo := rfl
@[simp] theorem State.setReg_trace : (s.setReg r v).trace = s.trace := rfl
@[simp] theorem State.setReg_config : (s.setReg r v).config = s.config := rfl
@[simp] theorem State.setReg_memRead (a : Byte) : (s.setReg r v).memRead a = s.memRead a := rfl
@[simp] theorem State.setReg_isRunning : (s.setReg r v).isRunning = s.isRunning := rfl
end setReg

section setPc
variable (s : State) (v : Byte)
@[simp] theorem State.setPc_mem : (s.setPc v).mem = s.mem := rfl
@[simp] theorem State.setPc_regs : (s.setPc v).regs = s.regs := rfl
@[simp] theorem State.setPc_pc : (s.setPc v).pc = v := rfl
@[simp] theorem State.setPc_fl : (s.setPc v).fl = s.fl := rfl
@[simp] theorem State.setPc_halted : (s.setPc v).halted = s.halted := rfl
@[simp] theorem State.setPc_faulted : (s.setPc v).faulted = s.faulted := rfl
@[simp] theorem State.setPc_faultCause : (s.setPc v).faultCause = s.faultCause := rfl
@[simp] theorem State.setPc_faultPc : (s.setPc v).faultPc = s.faultPc := rfl
@[simp] theorem State.setPc_faultInfo : (s.setPc v).faultInfo = s.faultInfo := rfl
@[simp] theorem State.setPc_trace : (s.setPc v).trace = s.trace := rfl
@[simp] theorem State.setPc_config : (s.setPc v).config = s.config := rfl
@[simp] theorem State.setPc_reg (r : Reg) : (s.setPc v).reg r = s.reg r := rfl
@[simp] theorem State.setPc_sp : (s.setPc v).sp = s.sp := rfl
@[simp] theorem State.setPc_memRead (a : Byte) : (s.setPc v).memRead a = s.memRead a := rfl
@[simp] theorem State.setPc_isRunning : (s.setPc v).isRunning = s.isRunning := rfl
end setPc

section setFl
variable (s : State) (v : FlagBits)
@[simp] theorem State.setFl_mem : (s.setFl v).mem = s.mem := rfl
@[simp] theorem State.setFl_regs : (s.setFl v).regs = s.regs := rfl
@[simp] theorem State.setFl_pc : (s.setFl v).pc = s.pc := rfl
@[simp] theorem State.setFl_fl : (s.setFl v).fl = v := rfl
@[simp] theorem State.setFl_halted : (s.setFl v).halted = s.halted := rfl
@[simp] theorem State.setFl_faulted : (s.setFl v).faulted = s.faulted := rfl
@[simp] theorem State.setFl_faultCause : (s.setFl v).faultCause = s.faultCause := rfl
@[simp] theorem State.setFl_faultPc : (s.setFl v).faultPc = s.faultPc := rfl
@[simp] theorem State.setFl_faultInfo : (s.setFl v).faultInfo = s.faultInfo := rfl
@[simp] theorem State.setFl_trace : (s.setFl v).trace = s.trace := rfl
@[simp] theorem State.setFl_config : (s.setFl v).config = s.config := rfl
@[simp] theorem State.setFl_reg (r : Reg) : (s.setFl v).reg r = s.reg r := rfl
@[simp] theorem State.setFl_sp : (s.setFl v).sp = s.sp := rfl
@[simp] theorem State.setFl_memRead (a : Byte) : (s.setFl v).memRead a = s.memRead a := rfl
@[simp] theorem State.setFl_isRunning : (s.setFl v).isRunning = s.isRunning := rfl
end setFl

section halt
variable (s : State)
@[simp] theorem State.halt_mem : (s.halt).mem = s.mem := rfl
@[simp] theorem State.halt_regs : (s.halt).regs = s.regs := rfl
@[simp] theorem State.halt_pc : (s.halt).pc = s.pc := rfl
@[simp] theorem State.halt_fl : (s.halt).fl = s.fl := rfl
@[simp] theorem State.halt_halted : (s.halt).halted = true := rfl
@[simp] theorem State.halt_faulted : (s.halt).faulted = s.faulted := rfl
@[simp] theorem State.halt_faultCause : (s.halt).faultCause = s.faultCause := rfl
@[simp] theorem State.halt_faultPc : (s.halt).faultPc = s.faultPc := rfl
@[simp] theorem State.halt_faultInfo : (s.halt).faultInfo = s.faultInfo := rfl
@[simp] theorem State.halt_trace : (s.halt).trace = s.trace := rfl
@[simp] theorem State.halt_config : (s.halt).config = s.config := rfl
@[simp] theorem State.halt_reg (r : Reg) : (s.halt).reg r = s.reg r := rfl
@[simp] theorem State.halt_sp : (s.halt).sp = s.sp := rfl
@[simp] theorem State.halt_memRead (a : Byte) : (s.halt).memRead a = s.memRead a := rfl
end halt

section emit
variable (s : State) (e : Event)
@[simp] theorem State.emit_mem : (s.emit e).mem = s.mem := rfl
@[simp] theorem State.emit_regs : (s.emit e).regs = s.regs := rfl
@[simp] theorem State.emit_pc : (s.emit e).pc = s.pc := rfl
@[simp] theorem State.emit_fl : (s.emit e).fl = s.fl := rfl
@[simp] theorem State.emit_halted : (s.emit e).halted = s.halted := rfl
@[simp] theorem State.emit_faulted : (s.emit e).faulted = s.faulted := rfl
@[simp] theorem State.emit_faultCause : (s.emit e).faultCause = s.faultCause := rfl
@[simp] theorem State.emit_faultPc : (s.emit e).faultPc = s.faultPc := rfl
@[simp] theorem State.emit_faultInfo : (s.emit e).faultInfo = s.faultInfo := rfl
@[simp] theorem State.emit_trace : (s.emit e).trace = s.trace ++ [e] := rfl
@[simp] theorem State.emit_config : (s.emit e).config = s.config := rfl
@[simp] theorem State.emit_reg (r : Reg) : (s.emit e).reg r = s.reg r := rfl
@[simp] theorem State.emit_sp : (s.emit e).sp = s.sp := rfl
@[simp] theorem State.emit_memRead (a : Byte) : (s.emit e).memRead a = s.memRead a := rfl
@[simp] theorem State.emit_isRunning : (s.emit e).isRunning = s.isRunning := rfl
end emit

section raise
variable (c : Condition) (info : Byte) (s : State)
@[simp] theorem raise_mem : (raise c info s).mem = s.mem := rfl
@[simp] theorem raise_regs : (raise c info s).regs = s.regs := rfl
@[simp] theorem raise_pc : (raise c info s).pc = s.pc := rfl
@[simp] theorem raise_fl : (raise c info s).fl = s.fl := rfl
@[simp] theorem raise_halted : (raise c info s).halted = s.halted := rfl
@[simp] theorem raise_faulted : (raise c info s).faulted = true := rfl
@[simp] theorem raise_faultCause : (raise c info s).faultCause = c := rfl
@[simp] theorem raise_faultPc : (raise c info s).faultPc = s.pc := rfl
@[simp] theorem raise_faultInfo : (raise c info s).faultInfo = info := rfl
@[simp] theorem raise_trace : (raise c info s).trace = s.trace := rfl
@[simp] theorem raise_config : (raise c info s).config = s.config := rfl
@[simp] theorem raise_reg (r : Reg) : (raise c info s).reg r = s.reg r := rfl
@[simp] theorem raise_sp : (raise c info s).sp = s.sp := rfl
@[simp] theorem raise_memRead (a : Byte) : (raise c info s).memRead a = s.memRead a := rfl
end raise

/-! ### Reading a register after a register write -/

theorem State.setReg_reg (s : State) (r q : Reg) (v : Byte) :
    (s.setReg r v).reg q = if r = q then v else s.reg q := by
  simp [State.reg, State.setReg, Vector.getElem_set, Fin.ext_iff]

@[simp] theorem State.setReg_reg_same (s : State) (r : Reg) (v : Byte) : (s.setReg r v).reg r = v := by
  simp [State.setReg_reg]

theorem State.setReg_reg_other (s : State) {r q : Reg} (h : q ≠ r) (v : Byte) :
    (s.setReg r v).reg q = s.reg q := by
  simp [State.setReg_reg, Ne.symm h]

@[simp] theorem State.setReg_sp_same (s : State) (v : Byte) : (s.setReg spIndex v).sp = v :=
  State.setReg_reg_same s spIndex v

/-- The run state is Running exactly when neither bit is set (R22). -/
theorem State.isRunning_iff (s : State) : s.isRunning = true ↔ s.halted = false ∧ s.faulted = false := by
  simp [State.isRunning]

end Sys2Proof.Machine
end

