-- ==== Sys2Proof/Laws/Memory.lean ====
section
/-! SUPPORT. Reading after writing, and the canonical form kept by every memory operation. -/

namespace Sys2Proof.Machine

/-! ### Reading after writing (R29, R30) -/

theorem Memory.read_erase (m : Memory) (a b : Nat) :
    Memory.read (Memory.erase m a) b = if b = a then Memory.unlisted else Memory.read m b := by
  induction m with
  | nil => simp [Memory.erase, Memory.read]
  | cons c m ih =>
    obtain ⟨k, w⟩ := c
    by_cases hak : a = k
    · subst hak
      by_cases hb : b = a
      · subst hb
        simpa [Memory.erase] using ih
      · simp [Memory.erase, Memory.read, ih, hb]
    · by_cases hb : b = k
      · subst hb
        simp [Memory.erase, Memory.read, hak, Ne.symm hak]
      · simp [Memory.erase, Memory.read, hak, hb, ih]

theorem Memory.read_insert (m : Memory) (a b : Nat) (v : Byte) :
    Memory.read (Memory.insert m a v) b = if b = a then v else Memory.read m b := by
  induction m with
  | nil => simp [Memory.insert, Memory.read]
  | cons c m ih =>
    obtain ⟨k, w⟩ := c
    unfold Memory.insert
    split
    · simp [Memory.read]
    · split
      · rename_i h
        subst h
        by_cases hb : b = a <;> simp [Memory.read, hb]
      · rename_i h
        by_cases hb : b = k
        · subst hb
          simp [Memory.read, Ne.symm h]
        · simp [Memory.read, hb, ih]

/-- `MemWrite` sets the cell written and no other. -/
theorem Memory.read_write (m : Memory) (a b : Nat) (v : Byte) :
    Memory.read (Memory.write m a v) b = if b = a then v else Memory.read m b := by
  unfold Memory.write
  split
  · rename_i h
    rw [Memory.read_erase, h]
  · exact Memory.read_insert m a b v

theorem State.memWrite_memRead (s : State) (a b v : Byte) :
    (s.memWrite a v).memRead b = if b = a then v else s.memRead b := by
  simp [State.memRead, State.memWrite, Memory.read_write, BitVec.toNat_inj]

@[simp] theorem State.memWrite_memRead_same (s : State) (a v : Byte) : (s.memWrite a v).memRead a = v := by
  simp [State.memWrite_memRead]

theorem State.memWrite_memRead_other (s : State) {a b : Byte} (h : b ≠ a) (v : Byte) :
    (s.memWrite a v).memRead b = s.memRead b := by
  simp [State.memWrite_memRead, h]

/-! ### The canonical form -/

theorem Memory.wfFrom_cons (lo b : Nat) (w : Byte) (m : Memory) :
    Memory.wfFrom lo ((b, w) :: m) = true ↔
      lo ≤ b ∧ b < 256 ∧ w ≠ Memory.unlisted ∧ Memory.wfFrom (b + 1) m = true := by
  simp only [Memory.wfFrom, Bool.and_eq_true, decide_eq_true_eq, and_assoc]
  exact Iff.rfl

/-- Below its first possible address a canonical list holds the unlisted value. -/
theorem Memory.read_below {lo : Nat} {m : Memory} (hm : Memory.wfFrom lo m = true) {a : Nat} (ha : a < lo) :
    Memory.read m a = Memory.unlisted := by
  induction m generalizing lo with
  | nil => rfl
  | cons c m ih =>
    obtain ⟨h1, -, -, h2⟩ := (Memory.wfFrom_cons lo c.1 c.2 m).mp hm
    rw [Memory.read, if_neg (by omega)]
    exact ih h2 (by omega)

theorem Memory.wfFrom_mono {lo lo' : Nat} (h : lo' ≤ lo) {m : Memory} (hm : Memory.wfFrom lo m = true) :
    Memory.wfFrom lo' m = true := by
  cases m with
  | nil => rfl
  | cons c m =>
    simp only [Memory.wfFrom, Bool.and_eq_true, decide_eq_true_eq] at hm ⊢
    exact ⟨⟨⟨by omega, hm.1.1.2⟩, hm.1.2⟩, hm.2⟩

theorem Memory.erase_wfFrom {lo : Nat} {m : Memory} (hm : Memory.wfFrom lo m = true) (a : Nat) :
    Memory.wfFrom lo (Memory.erase m a) = true := by
  induction m generalizing lo with
  | nil => rfl
  | cons c m ih =>
    simp only [Memory.wfFrom, Bool.and_eq_true, decide_eq_true_eq] at hm
    unfold Memory.erase
    split
    · exact Memory.wfFrom_mono (by omega) (ih hm.2)
    · simp only [Memory.wfFrom, Bool.and_eq_true, decide_eq_true_eq]
      exact ⟨hm.1, ih hm.2⟩

theorem Memory.insert_wfFrom {lo : Nat} {m : Memory} (hm : Memory.wfFrom lo m = true) {a : Nat} {v : Byte}
    (hlo : lo ≤ a) (ha : a < memSize) (hv : v ≠ Memory.unlisted) :
    Memory.wfFrom lo (Memory.insert m a v) = true := by
  induction m generalizing lo with
  | nil => simp [Memory.insert, Memory.wfFrom, hlo, ha, hv]
  | cons c m ih =>
    simp only [Memory.wfFrom, Bool.and_eq_true, decide_eq_true_eq] at hm
    unfold Memory.insert
    split
    · simp only [Memory.wfFrom, Bool.and_eq_true, decide_eq_true_eq]
      exact ⟨⟨⟨hlo, ha⟩, hv⟩, ⟨⟨by omega, hm.1.1.2⟩, hm.1.2⟩, hm.2⟩
    · split
      · rename_i h
        subst h
        simp only [Memory.wfFrom, Bool.and_eq_true, decide_eq_true_eq]
        exact ⟨⟨⟨hlo, ha⟩, hv⟩, hm.2⟩
      · simp only [Memory.wfFrom, Bool.and_eq_true, decide_eq_true_eq]
        exact ⟨hm.1, ih hm.2 (by omega)⟩

/-- Every write keeps the canonical form. -/
theorem Memory.write_wf {m : Memory} (hm : Memory.wf m = true) {a : Nat} (ha : a < memSize) (v : Byte) :
    Memory.wf (Memory.write m a v) = true := by
  unfold Memory.write
  split
  · exact Memory.erase_wfFrom hm a
  · rename_i hv
    exact Memory.insert_wfFrom hm (Nat.zero_le a) ha hv

theorem State.memWrite_wf {s : State} (hs : Memory.wf s.mem = true) (a v : Byte) :
    Memory.wf (s.memWrite a v).mem = true :=
  Memory.write_wf hs a.isLt v

/-- Reset memory lists nothing, and has the form. -/
theorem Memory.reset_wf : Memory.wf State.reset.mem = true := by decide

end Sys2Proof.Machine
end

