-- ==== Sys2Proof/Laws/Ops.lean ====
section
/-! SUPPORT. One lemma per shared operation that says everything it can do. -/

namespace Sys2Proof.Machine

/-! ### Register operands (R47) -/

theorem regIndexRaises_eq_not_accepted (mode : RegIndexMode) (r : Byte) :
    regIndexRaises mode r = !regOperandAccepted mode r := by
  cases mode
  · rfl
  · by_cases h : 8 ≤ r.toNat <;> simp [regIndexRaises, regOperandAccepted, h]
    all_goals omega

theorem withReg_of_illegal {r : Byte} {s : State} (hm : s.config.regIndexMode = .fault) (h : 8 ≤ r.toNat)
    (k : Reg → State) : withReg r s k = raise .illegalRegister r s := by
  simp [withReg, hm, regIndexRaises, h]

/-- RegIndex raises IllegalRegister with the operand byte, or passes the selected register on. -/
theorem withReg_cases (r : Byte) (s : State) (k : Reg → State) :
    (regOperandAccepted s.config.regIndexMode r = true ∧ withReg r s k = k (regOf r)) ∨
    (s.config.regIndexMode = .fault ∧ 8 ≤ r.toNat ∧ withReg r s k = raise .illegalRegister r s) := by
  by_cases h : regOperandAccepted s.config.regIndexMode r = true
  · exact .inl ⟨h, by simp [withReg, regIndexRaises_eq_not_accepted, h]⟩
  · refine .inr ?_
    cases hm : s.config.regIndexMode
    · simp [hm, regOperandAccepted] at h
    · simp only [hm, regOperandAccepted, decide_eq_true_eq] at h
      exact ⟨rfl, by omega, withReg_of_illegal hm (by omega) k⟩

theorem withReg_of_accepted {r : Byte} {s : State} (h : regOperandAccepted s.config.regIndexMode r = true)
    (k : Reg → State) : withReg r s k = k (regOf r) := by
  simp [withReg, regIndexRaises_eq_not_accepted, h]

/-! ### The stack primitives (R63, R64, R83) -/

theorem pushRaises_iff (s : State) : pushRaises s = true ↔ s.config.stackCheck = .on ∧ s.sp = 0x00 := by
  simp [pushRaises]

theorem popRaises_iff (s : State) : popRaises s = true ↔ s.config.stackCheck = .on ∧ s.sp = 0xFF := by
  simp [popRaises]

theorem checkPush_cases (s k : State) :
    (¬ (s.config.stackCheck = .on ∧ s.sp = 0x00) ∧ checkPush s k = k) ∨
    (s.config.stackCheck = .on ∧ s.sp = 0x00 ∧ checkPush s k = raise .stackOverflow 0x00 s) := by
  by_cases h : s.config.stackCheck = .on ∧ s.sp = 0x00
  · refine .inr ⟨h.1, h.2, ?_⟩
    simp [checkPush, (pushRaises_iff s).mpr h, h.2]
  · exact .inl ⟨h, by simp [checkPush, mt (pushRaises_iff s).mp h]⟩

theorem checkPop_cases (s k : State) :
    (¬ (s.config.stackCheck = .on ∧ s.sp = 0xFF) ∧ checkPop s k = k) ∨
    (s.config.stackCheck = .on ∧ s.sp = 0xFF ∧ checkPop s k = raise .stackUnderflow 0xFF s) := by
  by_cases h : s.config.stackCheck = .on ∧ s.sp = 0xFF
  · refine .inr ⟨h.1, h.2, ?_⟩
    simp [checkPop, (popRaises_iff s).mpr h, h.2]
  · exact .inl ⟨h, by simp [checkPop, mt (popRaises_iff s).mp h]⟩

@[simp] theorem decSp_eq (s : State) : decSp s = s.setReg spIndex (s.sp - 1) := rfl
@[simp] theorem incSp_eq (s : State) : incSp s = s.setReg spIndex (s.sp + 1) := rfl

/-- Push8 raises StackOverflow, or decrements SP and stores at the new SP. -/
theorem push8_cases (v : Byte) (s : State) (k : State → State) :
    (¬ (s.config.stackCheck = .on ∧ s.sp = 0x00) ∧
      push8 v s k = k ((s.setReg spIndex (s.sp - 1)).memWrite (s.sp - 1) v)) ∨
    (s.config.stackCheck = .on ∧ s.sp = 0x00 ∧ push8 v s k = raise .stackOverflow 0x00 s) := by
  simpa [push8] using checkPush_cases s (k ((s.setReg spIndex (s.sp - 1)).memWrite (s.sp - 1) v))

/-- Pop8 raises StackUnderflow, or loads at SP and increments it. -/
theorem pop8_cases (s : State) (k : Byte → State → State) :
    (¬ (s.config.stackCheck = .on ∧ s.sp = 0xFF) ∧
      pop8 s k = k (s.memRead s.sp) (s.setReg spIndex (s.sp + 1))) ∨
    (s.config.stackCheck = .on ∧ s.sp = 0xFF ∧ pop8 s k = raise .stackUnderflow 0xFF s) := by
  simpa [pop8] using checkPop_cases s (k (s.memRead s.sp) (s.setReg spIndex (s.sp + 1)))

/-! ### The flags (R76) -/

/-- The comparison gives exactly one of the three values, as the operands compare. -/
theorem compareFlags_cases (p q : Byte) :
    (p.toNat < q.toNat ∧ compareFlags p q = 0b100) ∨ (q.toNat < p.toNat ∧ compareFlags p q = 0b010) ∨
    (p = q ∧ compareFlags p q = 0b001) := by
  rcases Nat.lt_trichotomy p.toNat q.toNat with h | h | h
  · exact .inl ⟨h, by simp [compareFlags, h]⟩
  · exact .inr (.inr ⟨BitVec.eq_of_toNat_eq h, by simp [compareFlags, h]⟩)
  · exact .inr (.inl ⟨h, by simp [compareFlags, h, Nat.not_lt.mpr (Nat.le_of_lt h)]⟩)

/-! ### The ALU's writing operations and the conditional jump (R74, R75, R70, R71) -/

/-- ADD's and MUL's shape: the result written and pc advanced, or the first operand of 8 or more raised. -/
theorem aluWrite_cases (f : Byte → Byte → Byte) (op a b : Byte) (s : State) :
    (regOperandAccepted s.config.regIndexMode a = true ∧ regOperandAccepted s.config.regIndexMode b = true ∧
      aluWrite f op a b s =
        (s.setReg (regOf a) (f (s.reg (regOf a)) (s.reg (regOf b)))).setPc (s.pc + BitVec.ofNat 8 (instrLength op))) ∨
    (s.config.regIndexMode = .fault ∧ 8 ≤ a.toNat ∧ aluWrite f op a b s = raise .illegalRegister a s) ∨
    (s.config.regIndexMode = .fault ∧ a.toNat < 8 ∧ 8 ≤ b.toNat ∧ aluWrite f op a b s = raise .illegalRegister b s) := by
  unfold aluWrite
  obtain ⟨ha, e⟩ | ⟨hm, h8, e⟩ := withReg_cases a s fun d => withReg b s fun r =>
    (s.setReg d (f (s.reg d) (s.reg r))).advance op
  · obtain ⟨hb, e'⟩ | ⟨hm, h8, e'⟩ := withReg_cases b s fun r =>
      (s.setReg (regOf a) (f (s.reg (regOf a)) (s.reg r))).advance op
    · exact .inl ⟨ha, hb, by rw [e, e', State.advance_eq, State.setReg_pc]⟩
    · simp only [hm, regOperandAccepted, decide_eq_true_eq] at ha
      exact .inr (.inr ⟨hm, ha, h8, e.trans e'⟩)
  · exact .inr (.inl ⟨hm, h8, e⟩)

@[simp] theorem jumpIf_eq (taken : Bool) (r : Reg) (s : State) :
    jumpIf taken r s = s.setPc (if taken = true then s.reg r else s.pc + 2) := rfl

/-! ### Unknown opcodes (R81, R82) -/

theorem execUnknown_cases (op : Byte) (s : State) :
    (s.config.unknownOpcodePolicy = .skip ∧
      execUnknown op s = (s.emit (.diag op s.pc)).setPc (s.pc + BitVec.ofNat 8 (instrLength op))) ∨
    (s.config.unknownOpcodePolicy = .fault ∧ execUnknown op s = raise .unknownOpcode op s) := by
  cases h : s.config.unknownOpcodePolicy
  · exact .inl ⟨rfl, by simp [execUnknown, h]⟩
  · exact .inr ⟨rfl, by simp [execUnknown, h]⟩

/-! ### The decoder -/

/-- The window's decoder refuses exactly the opcodes outside the table, and what it accepts has that opcode. -/
theorem decode_cases (op a b : Byte) :
    (∃ i, decode op a b = .ok i ∧ i.opcode = op ∧ op ∈ opcodeTable) ∨
    (decode op a b = .error (.unknownOpcode op) ∧ op ∉ opcodeTable) := by
  unfold decode
  split
  all_goals first
    | exact .inl ⟨_, rfl, rfl, by decide⟩
    | exact .inr ⟨rfl, by simp_all [opcodeTable]⟩

/-! ### The step (R54 to R58) -/

/-- A step in Running is the decoded instruction or the unknown-opcode rule; outside Running it is nothing. -/
theorem step_cases (s : State) :
    (s.isRunning = false ∧ step s = .next s) ∨
    (s.isRunning = true ∧ ∃ i, decode (s.memRead s.pc) (s.memRead (s.pc + 1)) (s.memRead (s.pc + 2)) = .ok i ∧
      i.opcode = s.memRead s.pc ∧ step s = exec i s) ∨
    (s.isRunning = true ∧ s.memRead s.pc ∉ opcodeTable ∧ step s = .next (execUnknown (s.memRead s.pc) s)) := by
  have h0 : fetchByte s 0 = s.memRead s.pc := by simp [fetchByte]
  have h1 : fetchByte s 1 = s.memRead (s.pc + 1) := rfl
  have h2 : fetchByte s 2 = s.memRead (s.pc + 2) := rfl
  cases hr : s.isRunning
  · exact .inl ⟨rfl, by simp [step, hr]⟩
  · obtain ⟨i, hd, ho, -⟩ | ⟨hd, hn⟩ := decode_cases (s.memRead s.pc) (s.memRead (s.pc + 1)) (s.memRead (s.pc + 2))
    · exact .inr (.inl ⟨rfl, i, hd, ho, by unfold step; rw [if_pos hr, h0, h1, h2, hd]⟩)
    · exact .inr (.inr ⟨rfl, hn, by unfold step; rw [if_pos hr, h0, h1, h2, hd]⟩)

/-! ### The load port (R37) -/

@[simp] theorem loadFrom_nil (i : Nat) (s : State) : loadFrom i [] s = s := rfl

@[simp] theorem loadFrom_cons (i : Nat) (v : Byte) (vs : List Byte) (s : State) :
    loadFrom i (v :: vs) s = loadFrom (i + 1) vs (s.memWrite (BitVec.ofNat 8 i) v) := rfl

/-- A load changes nothing but memory. -/
theorem loadFrom_only_mem (i : Nat) (vs : List Byte) (s : State) :
    loadFrom i vs s = { s with mem := (loadFrom i vs s).mem } := by
  induction vs generalizing i s with
  | nil => rfl
  | cons v vs ih => exact ih (i + 1) (s.memWrite (BitVec.ofNat 8 i) v)

theorem loadFrom_wf (i : Nat) (vs : List Byte) {s : State} (hs : Memory.wf s.mem = true) :
    Memory.wf (loadFrom i vs s).mem = true := by
  induction vs generalizing i s with
  | nil => exact hs
  | cons v vs ih => exact ih (i + 1) (State.memWrite_wf hs _ v)

/-- A load operation, accepted or refused, changes nothing but memory. -/
theorem perform_load_only_mem (bytes : List Byte) (s : State) :
    perform (.load bytes) s = { s with mem := (perform (.load bytes) s).mem } := by
  simp only [perform, load]
  split
  · exact loadFrom_only_mem 0 bytes s
  · rfl

theorem perform_load_wf (bytes : List Byte) {s : State} (hs : Memory.wf s.mem = true) :
    Memory.wf (perform (.load bytes) s).mem = true := by
  simp only [perform, load]
  split
  · exact loadFrom_wf 0 bytes hs
  · exact hs

end Sys2Proof.Machine
end

