-- ==== Sys2Proof/Laws/PerInstr.lean ====
section
/-! SUPPORT. The per-instruction family: the shape of an instruction's encoding (R43, R44, R45, R49). -/

namespace Sys2Proof.Laws.EncodedShape

/-- The encoding begins with the instruction's opcode, which is in the table, has the length of that opcode, holds the
register operands right after it, and has bit 5 set exactly for the ALU instructions and bit 4 exactly for those that write pc. -/
def Statement (i : Instr) : Prop :=
  (∃ rest, encode i = i.opcode :: rest ∧ i.regOperands <+: rest) ∧
  i.opcode ∈ opcodeTable ∧
  (encode i).length = instrLength i.opcode ∧
  (opcodeIsAlu i.opcode = true ↔ ∃ a b, i = .add a b ∨ i = .mul a b ∨ i = .cmp a b) ∧
  (opcodeSetsPc i.opcode = true ↔ i = .ret ∨ ∃ a, i = .call a ∨ i = .jmp a ∨ i = .jeq a ∨ i = .jne a)

theorem hlt : Statement .hlt :=
  ⟨⟨_, rfl, by simp [Instr.regOperands]⟩, by simp [Instr.opcode, opcodeTable],
    (by decide : 1 = instrLength 0x01), by simp [opcodeIsAlu, Instr.opcode], by simp [opcodeSetsPc, Instr.opcode]⟩

theorem ldi (a imm : Byte) : Statement (.ldi a imm) :=
  ⟨⟨_, rfl, by simp [Instr.regOperands]⟩, by simp [Instr.opcode, opcodeTable],
    (by decide : 3 = instrLength 0x82), by simp [opcodeIsAlu, Instr.opcode], by simp [opcodeSetsPc, Instr.opcode]⟩

theorem prn (a : Byte) : Statement (.prn a) :=
  ⟨⟨_, rfl, by simp [Instr.regOperands]⟩, by simp [Instr.opcode, opcodeTable],
    (by decide : 2 = instrLength 0x47), by simp [opcodeIsAlu, Instr.opcode], by simp [opcodeSetsPc, Instr.opcode]⟩

theorem push (a : Byte) : Statement (.push a) :=
  ⟨⟨_, rfl, by simp [Instr.regOperands]⟩, by simp [Instr.opcode, opcodeTable],
    (by decide : 2 = instrLength 0x45), by simp [opcodeIsAlu, Instr.opcode], by simp [opcodeSetsPc, Instr.opcode]⟩

theorem pop (a : Byte) : Statement (.pop a) :=
  ⟨⟨_, rfl, by simp [Instr.regOperands]⟩, by simp [Instr.opcode, opcodeTable],
    (by decide : 2 = instrLength 0x46), by simp [opcodeIsAlu, Instr.opcode], by simp [opcodeSetsPc, Instr.opcode]⟩

theorem call (a : Byte) : Statement (.call a) :=
  ⟨⟨_, rfl, by simp [Instr.regOperands]⟩, by simp [Instr.opcode, opcodeTable],
    (by decide : 2 = instrLength 0x50), by simp [opcodeIsAlu, Instr.opcode], by simp [opcodeSetsPc, Instr.opcode]⟩

theorem ret : Statement .ret :=
  ⟨⟨_, rfl, by simp [Instr.regOperands]⟩, by simp [Instr.opcode, opcodeTable],
    (by decide : 1 = instrLength 0x11), by simp [opcodeIsAlu, Instr.opcode], by simp [opcodeSetsPc, Instr.opcode]⟩

theorem jmp (a : Byte) : Statement (.jmp a) :=
  ⟨⟨_, rfl, by simp [Instr.regOperands]⟩, by simp [Instr.opcode, opcodeTable],
    (by decide : 2 = instrLength 0x54), by simp [opcodeIsAlu, Instr.opcode], by simp [opcodeSetsPc, Instr.opcode]⟩

theorem jeq (a : Byte) : Statement (.jeq a) :=
  ⟨⟨_, rfl, by simp [Instr.regOperands]⟩, by simp [Instr.opcode, opcodeTable],
    (by decide : 2 = instrLength 0x55), by simp [opcodeIsAlu, Instr.opcode], by simp [opcodeSetsPc, Instr.opcode]⟩

theorem jne (a : Byte) : Statement (.jne a) :=
  ⟨⟨_, rfl, by simp [Instr.regOperands]⟩, by simp [Instr.opcode, opcodeTable],
    (by decide : 2 = instrLength 0x56), by simp [opcodeIsAlu, Instr.opcode], by simp [opcodeSetsPc, Instr.opcode]⟩

theorem add (a b : Byte) : Statement (.add a b) :=
  ⟨⟨_, rfl, by simp [Instr.regOperands]⟩, by simp [Instr.opcode, opcodeTable],
    (by decide : 3 = instrLength 0xA0), by simp [opcodeIsAlu, Instr.opcode], by simp [opcodeSetsPc, Instr.opcode]⟩

theorem mul (a b : Byte) : Statement (.mul a b) :=
  ⟨⟨_, rfl, by simp [Instr.regOperands]⟩, by simp [Instr.opcode, opcodeTable],
    (by decide : 3 = instrLength 0xA2), by simp [opcodeIsAlu, Instr.opcode], by simp [opcodeSetsPc, Instr.opcode]⟩

theorem cmp (a b : Byte) : Statement (.cmp a b) :=
  ⟨⟨_, rfl, by simp [Instr.regOperands]⟩, by simp [Instr.opcode, opcodeTable],
    (by decide : 3 = instrLength 0xA7), by simp [opcodeIsAlu, Instr.opcode], by simp [opcodeSetsPc, Instr.opcode]⟩

end Sys2Proof.Laws.EncodedShape
end

