-- ==== Sys2Proof/Tests/Slice0.lean ====
section
/-! SUPPORT. Tests with expected results from `30_encoding.md` R49 and the vectors of `95_test_vectors.md` (ids V-…), and
for every statement with hypotheses a witness that meets them. No expected value was produced by this model. -/

namespace Sys2Proof.Tests

open Sys2Proof.Machine

/-! ### Helpers -/

/-- `s` with `bytes` in the cells from `addr` on, addresses modulo 256. -/
def put (s : State) (addr : Byte) : List Byte → State
  | [] => s
  | v :: vs => put (s.memWrite addr v) (addr + 1) vs

/-- The reset core in configuration `c`, with pc at `pc` and `bytes` there. -/
def at_ (c : Config) (pc : Byte) (bytes : List Byte) : State := put ((State.created c).setPc pc) pc bytes

/-- Every switch away from its default. -/
def strict : Config := ⟨.fault, .on, .fault⟩

abbrev dflt : Config := Config.default

/-- The outcome is a next state with `p`. -/
def nextWith (o : Host.Outcome State Fault Refusal) (p : State → Bool) : Bool :=
  match o with
  | .next t => p t
  | .fault _ => false
  | .refused _ => false

/-- One step from `s` ends in a next state with `p`. -/
def stepTo (s : State) (p : State → Bool) : Bool := nextWith (step s) p

/-! ### Decoding: each row's word in the binary of R49, with the operand bytes of its format (R43) -/

theorem test_decode_control_rows :
    decodeBytes [0b00000001] = .ok (.hlt, []) ∧ decodeBytes [0b01010000, 1] = .ok (.call 1, []) ∧
    decodeBytes [0b00010001] = .ok (.ret, []) ∧ decodeBytes [0b01010100, 2] = .ok (.jmp 2, []) ∧
    decodeBytes [0b01010101, 3] = .ok (.jeq 3, []) ∧ decodeBytes [0b01010110, 4] = .ok (.jne 4, []) := by decide

theorem test_decode_data_stack_output_rows :
    decodeBytes [0b10000010, 5, 0xFE] = .ok (.ldi 5 0xFE, []) ∧ decodeBytes [0b01000111, 6] = .ok (.prn 6, []) ∧
    decodeBytes [0b01000101, 7] = .ok (.push 7, []) ∧ decodeBytes [0b01000110, 0] = .ok (.pop 0, []) := by decide

theorem test_decode_alu_rows :
    decodeBytes [0b10100000, 1, 2] = .ok (.add 1 2, []) ∧ decodeBytes [0b10100010, 3, 4] = .ok (.mul 3 4, []) ∧
    decodeBytes [0b10100111, 5, 6] = .ok (.cmp 5 6, []) := by decide

/-- R50, V-U2, V-U3: opcodes with bit 5 or bit 4 that are not in the table; and a list that ends too soon. -/
theorem test_decode_refuses_by_name :
    decodeBytes [0xA1, 0, 0] = .error (.unknownOpcode 0xA1) ∧ decodeBytes [0x58, 0] = .error (.unknownOpcode 0x58) ∧
    decodeBytes [0x82, 0] = .error .truncated := by decide

/-- The opcode table's numbering: byte 1 is bits 15..8, byte 2 bits 23..16; operand bytes above `nbits` are 0. -/
theorem test_decodeTableWord :
    decodeTableWord 24 0xFE0582 = some (.ldi 5 0xFE) ∧ decodeTableWord 8 0x82 = some (.ldi 0 0) ∧
    decodeTableWord 16 0x0147 = some (.prn 1) ∧ decodeTableWord 8 0x00 = none := by decide

/-- V-F1. -/
theorem test_lengths :
    ([0x00, 0x3F, 0x40, 0x7F, 0x80, 0xBF, 0xC0, 0xFF] : List Byte).map instrLength = [1, 1, 2, 2, 3, 3, 3, 3] := by
  decide

/-! ### Well-formedness: an ill-formed term for each check -/

theorem test_illformed_first_operand :
    (Instr.ldi 8 0).wellFormed .fault = false ∧ (Instr.prn 8).wellFormed .fault = false ∧
    (Instr.push 0xFF).wellFormed .fault = false ∧ (Instr.pop 8).wellFormed .fault = false ∧
    (Instr.call 8).wellFormed .fault = false ∧ (Instr.jmp 8).wellFormed .fault = false ∧
    (Instr.jeq 0x20).wellFormed .fault = false ∧ (Instr.jne 8).wellFormed .fault = false ∧
    (Instr.add 8 0).wellFormed .fault = false ∧ (Instr.mul 8 0).wellFormed .fault = false ∧
    (Instr.cmp 8 0).wellFormed .fault = false := by decide

theorem test_illformed_second_operand :
    (Instr.add 7 8).wellFormed .fault = false ∧ (Instr.mul 7 8).wellFormed .fault = false ∧
    (Instr.cmp 7 8).wellFormed .fault = false ∧ (Instr.ldi 7 8).wellFormed .fault = true := by decide

/-! ### Instructions -/

/-- V-H1. -/
theorem test_hlt : stepTo (at_ dflt 0x05 [0x01]) (fun t => t.halted && t.pc == 0x06 && t.trace == []) := by decide
/-- V-F3. -/
theorem test_hlt_wraps : stepTo (at_ dflt 0xFF [0x01]) (fun t => t.halted && t.pc == 0x00) := by decide
/-- V-F2. -/
theorem test_ldi_wraps : stepTo (at_ dflt 0xFE [0x82, 0x03, 0x2A]) (fun t => t.reg 3 == 0x2A && t.pc == 0x01) := by
  decide
/-- V-L4. -/
theorem test_ldi_illegal_register :
    stepTo (at_ ⟨.skip, .off, .fault⟩ 0x00 [0x82, 0x0A, 0x77])
      (fun t => t.status == .faulted .illegalRegister && t.faultPc == 0x00 && t.faultInfo == 0x0A && t.pc == 0x00 &&
        t.reg 2 == 0x00) := by decide
/-- V-F4. -/
theorem test_prn_wraps :
    stepTo ((at_ dflt 0xFF [0x47, 0x04]).setReg 4 200) (fun t => t.trace == [.out 200] && t.pc == 0x01) := by decide
/-- V-P2. -/
theorem test_prn_sp : stepTo (at_ dflt 0x00 [0x47, 0x07]) (fun t => t.trace == [.out 244]) := by decide
/-- V-ST2. -/
theorem test_push_sp :
    stepTo (at_ dflt 0x10 [0x45, 0x07]) (fun t => t.sp == 0xF3 && t.memRead 0xF3 == 0xF3 && t.pc == 0x12) := by decide
/-- V-ST3. -/
theorem test_push_wraps :
    stepTo (((at_ dflt 0x10 [0x45, 0x00]).setSp 0x00).setReg 0 0x2A)
      (fun t => t.sp == 0xFF && t.memRead 0xFF == 0x2A) := by decide
/-- V-ST6. -/
theorem test_pop_sp :
    stepTo (put ((at_ dflt 0x10 [0x46, 0x07]).setSp 0xF3) 0xF3 [0x40]) (fun t => t.sp == 0x41 && t.pc == 0x12) := by
  decide
/-- V-ST8. -/
theorem test_pop_underflow :
    stepTo (put ((at_ ⟨.skip, .on, .mask⟩ 0x10 [0x46, 0x01]).setSp 0xFF) 0xFF [0x99])
      (fun t => t.faultCause.code == 4 && t.faultPc == 0x10 && t.faultInfo == 0xFF && t.reg 1 == 0x00 && t.sp == 0xFF) := by
  decide
/-- V-C2. -/
theorem test_call_wraps :
    stepTo ((at_ dflt 0xFE [0x50, 0x01]).setReg 1 0x40)
      (fun t => t.sp == 0xF3 && t.memRead 0xF3 == 0x00 && t.pc == 0x40) := by decide
/-- V-C3. -/
theorem test_call_sp :
    stepTo (at_ dflt 0x10 [0x50, 0x07]) (fun t => t.memRead 0xF3 == 0x12 && t.pc == 0xF3) := by decide
/-- V-C4. -/
theorem test_ret :
    stepTo (put ((at_ dflt 0x40 [0x11]).setSp 0xF3) 0xF3 [0x12]) (fun t => t.pc == 0x12 && t.sp == 0xF4) := by decide
/-- V-C5. -/
theorem test_ret_underflow :
    stepTo (put ((at_ ⟨.skip, .on, .mask⟩ 0x40 [0x11]).setSp 0xFF) 0xFF [0x12])
      (fun t => t.faultCause.code == 4 && t.faultInfo == 0xFF && t.pc == 0x40 && t.sp == 0xFF) := by decide
/-- V-J1. -/
theorem test_jmp : stepTo ((at_ dflt 0x00 [0x54, 0x02]).setReg 2 0x80) (fun t => t.pc == 0x80) := by decide
/-- V-Q1. -/
theorem test_jeq_taken :
    stepTo (((at_ dflt 0x12 [0x55, 0x03]).setReg 3 0x0C).setFl 0b001) (fun t => t.pc == 0x0C) := by decide
/-- V-Q5. -/
theorem test_jeq_falls_through_wrapping :
    stepTo (((at_ dflt 0xFF [0x55, 0x03]).setReg 3 0x0C).setFl 0b100) (fun t => t.pc == 0x01) := by decide
/-- V-N2. -/
theorem test_jne_taken :
    stepTo (((at_ dflt 0x12 [0x56, 0x03]).setReg 3 0x0C).setFl 0b010) (fun t => t.pc == 0x0C) := by decide
/-- V-N3. -/
theorem test_jne_falls_through :
    stepTo (((at_ dflt 0x12 [0x56, 0x03]).setReg 3 0x0C).setFl 0b001) (fun t => t.pc == 0x14) := by decide
/-- V-A1. -/
theorem test_add_wraps :
    stepTo ((((at_ dflt 0x00 [0xA0, 0x00, 0x01]).setReg 0 200).setReg 1 100).setFl 0b100)
      (fun t => t.reg 0 == 44 && t.reg 1 == 100 && t.fl == 0b100 && t.pc == 0x03) := by decide
/-- V-A6. -/
theorem test_add_illegal_second :
    stepTo (at_ ⟨.skip, .off, .fault⟩ 0x00 [0xA0, 0x01, 0x09])
      (fun t => t.faultCause.code == 2 && t.faultInfo == 0x09) := by decide
/-- V-M4. -/
theorem test_mul_low_byte :
    stepTo (((at_ dflt 0x00 [0xA2, 0x00, 0x01]).setReg 0 0x03).setReg 1 0x56) (fun t => t.reg 0 == 0x02) := by decide
/-- V-M3. -/
theorem test_mul_unsigned :
    stepTo (((at_ dflt 0x00 [0xA2, 0x00, 0x01]).setReg 0 0xFF).setReg 1 0xFF) (fun t => t.reg 0 == 0x01) := by decide
/-- V-K4. -/
theorem test_cmp_unsigned_greater :
    stepTo ((((at_ dflt 0x00 [0xA7, 0x00, 0x01]).setReg 0 0x80).setReg 1 0x01).setFl 0b100)
      (fun t => t.fl == 0b010) := by decide
/-- V-K5. -/
theorem test_cmp_less : stepTo ((at_ dflt 0x00 [0xA7, 0x00, 0x01]).setReg 1 0xFF) (fun t => t.fl == 0b100) := by decide

/-! ### Unknown opcodes and priority -/

/-- V-U3, V-U5: bit 4 set still advances; bits 7 and 6 give length 3. -/
theorem test_unknown_skip :
    stepTo (at_ dflt 0x30 [0x58]) (fun t => t.trace == [.diag 0x58 0x30] && t.pc == 0x32) ∧
    stepTo (at_ dflt 0x20 [0xC0]) (fun t => t.trace == [.diag 0xC0 0x20] && t.pc == 0x23) := by decide
/-- V-U8, V-U9. -/
theorem test_priority :
    stepTo (at_ strict 0x07 [0xA1, 0x20]) (fun t => t.faultCause.code == 1 && t.faultInfo == 0xA1 && t.trace == []) ∧
    stepTo ((at_ strict 0x07 [0x45, 0x20]).setSp 0x00)
      (fun t => t.faultCause.code == 2 && t.faultInfo == 0x20 && t.sp == 0x00) := by decide

/-! ### Host operations -/

/-- V-R2, V-R5: a load keeps the cells beyond it, pc and the run state. -/
theorem test_load :
    (perform (.load [0x82, 0x00, 0x08]) ((put State.reset 0x03 [0x77]).halt.setPc 0x06)) =
      (put State.reset 0x00 [0x82, 0x00, 0x08, 0x77]).halt.setPc 0x06 := by decide
/-- V-R3. -/
theorem test_load_too_large : perform (.load (List.replicate 257 0x01)) State.reset = State.reset := by
  rw [perform, load, if_neg (by rw [List.length_replicate]; decide), afterwards]
/-- V-R1. -/
theorem test_reset_keeps_the_trace :
    perform .reset ((at_ strict 0x05 [0x01]).halt.emit (.out 8)) = (State.created strict).emit (.out 8) := by decide
/-- Program P1 (S1): its run returns Halted with Out(8). -/
theorem test_run_first_program :
    nextWith (runFor 10 (perform (.load [0x82, 0, 8, 0x47, 0, 0x01]) State.reset))
      (fun t => t.finishedNormally && t.pc == 0x06 && t.trace == [.out 8] && t.reg 0 == 8) := by decide
/-- The word form of the fetch: the next step runs the instruction stored. -/
theorem test_withFetchWord :
    stepTo (State.reset.withFetchWord 24 0xFE0582) (fun t => t.reg 5 == 0xFE && t.pc == 0x03) := by decide

/-! ### Witnesses: states and operands that meet each statement's hypotheses, clause by clause -/

/-- OpcodeMapIsTheFixedTable, second clause. -/
theorem witness_unlisted_opcode : (0x00 : Byte) ∉ opcodeTable ∧ (0xA1 : Byte) ∉ opcodeTable := by decide

theorem witness_LengthFollowsBitsSevenAndSix :
    128 ≤ (0x80 : Byte).toNat ∧ 64 ≤ (0x40 : Byte).toNat ∧ (0x7F : Byte).toNat < 128 ∧ (0x3F : Byte).toNat < 64 := by decide

theorem witness_EncodeOfDecodeIsTheBytes : decodeBytes [0x82, 0x07, 0xFF, 0x01] = .ok (.ldi 7 0xFF, [0x01]) := by decide

/-- AluOpcodesAreAddMulCmp: a table opcode and an unknown one with bit 5. -/
theorem witness_AluOpcodesAreAddMulCmp : (0xA0 : Byte).getLsbD 5 = true ∧ (0xA2 : Byte).getLsbD 5 = true ∧
    (0xA7 : Byte).getLsbD 5 = true ∧ (0xA1 : Byte).getLsbD 5 = true := by decide

/-- StepRunsTheDecodedInstruction, at the last address. -/
theorem witness_StepRunsTheDecodedInstruction :
    let s := at_ dflt 0xFF [0x82, 0x07, 0x10]
    s.halted = false ∧ s.faulted = false ∧
    decode (s.memRead s.pc) (s.memRead (s.pc + 1)) (s.memRead (s.pc + 2)) = .ok (.ldi 7 0x10) := by decide

theorem witness_StepRunsTheEncodedInstruction :
    let s := at_ dflt 0xFE (encode (.add 0 7))
    s.halted = false ∧ s.faulted = false ∧ (encode (.add 0 7))[0]? = some (s.memRead (s.pc + BitVec.ofNat 8 0)) ∧
    (encode (.add 0 7))[1]? = some (s.memRead (s.pc + BitVec.ofNat 8 1)) ∧
    (encode (.add 0 7))[2]? = some (s.memRead (s.pc + BitVec.ofNat 8 2)) ∧ (encode (.add 0 7)).length = 3 := by decide

theorem witness_StepOutsideRunningDoesNothing :
    State.reset.halt.halted = true ∧ (raise .unknownOpcode 0 State.reset).faulted = true := by decide

theorem witness_UnknownOpcodeIsSkipped :
    let s := at_ dflt 0xFF [0x12]
    s.halted = false ∧ s.faulted = false ∧ s.config.unknownOpcodePolicy = .skip ∧ s.memRead s.pc ∉ opcodeTable := by decide

theorem witness_UnknownOpcodeFaults :
    let s := at_ strict 0xFF [0x12]
    s.halted = false ∧ s.faulted = false ∧ s.config.unknownOpcodePolicy = .fault ∧ s.memRead s.pc ∉ opcodeTable := by decide

/-- GenericAdvanceRule: a step that advances, and one that faults. -/
theorem witness_GenericAdvanceRule :
    (∃ t, step (at_ dflt 0xFF [0x58]) = .next t ∧ t.faulted = false ∧
      ¬ ((at_ dflt 0xFF [0x58]).memRead 0xFF ∈ opcodeTable ∧ opcodeSetsPc ((at_ dflt 0xFF [0x58]).memRead 0xFF) = true)) ∧
    (∃ t, step (at_ strict 0xFF [0x58]) = .next t ∧ t.faulted = true) :=
  ⟨⟨_, rfl, by decide, by decide⟩, ⟨_, rfl, by decide⟩⟩

/-- RegIndexDecodesTheOperandByte: 8 under `mask`, 7 and 8 under `fault`. -/
theorem witness_RegIndexDecodesTheOperandByte :
    State.reset.config.regIndexMode = .mask ∧ (0 : Reg).val = (8 : Byte).toNat % 8 ∧
    (State.created strict).config.regIndexMode = .fault ∧ (7 : Reg).val = (7 : Byte).toNat ∧ 8 ≤ (8 : Byte).toNat := by decide

/-- The register operands' clauses of LDI, PRN, PUSH, POP, CALL, JMP, JEQ and JNE: 7 is accepted and 8 illegal under
`fault`, 8 is accepted under `mask`. -/
theorem witness_one_register_operand :
    ∀ i ∈ ([fun a => Instr.ldi a 0xFF, .prn, .push, .pop, .call, .jmp, .jeq, .jne] : List (Byte → Instr)),
      (i 7).wellFormed .fault = true ∧ (i 8).wellFormed .mask = true ∧
      (i 8).regOperands.find? (fun q => decide (8 ≤ q.toNat)) = some 8 := by decide

/-- The same of ADD, MUL and CMP, with the second operand illegal too. -/
theorem witness_two_register_operands :
    ∀ i ∈ ([Instr.add, .mul, .cmp] : List (Byte → Byte → Instr)),
      (i 7 7).wellFormed .fault = true ∧ (i 8 0xFF).wellFormed .mask = true ∧
      (i 8 9).regOperands.find? (fun q => decide (8 ≤ q.toNat)) = some 8 ∧
      (i 7 9).regOperands.find? (fun q => decide (8 ≤ q.toNat)) = some 9 := by decide

/-- HltHaltsAndAdvances, its clauses with hypotheses. -/
theorem witness_HltHaltsAndAdvances :
    State.reset.halt.halted = true ∧ HostOp.step ≠ .reset ∧ HostOp.load [] ≠ .reset ∧ Instr.ret ≠ .hlt ∧
    State.reset.config = Config.default ∧ State.reset.isRunning = true ∧ nextWith (exec .ret State.reset) (fun _ => true) := by
  decide

/-- PUSH and CALL: SP = 0x01 with the check on, SP = 0x00 with it off, and SP = 0x00 with it on, each with accepted
operands (R6, and R7 by two bytes). -/
theorem witness_push_and_call :
    (let s := (State.created strict).setSp 0x01;
      ¬ (s.config.stackCheck = .on ∧ s.sp = 0x00) ∧ (Instr.push 6).wellFormed s.config.regIndexMode = true ∧
      (Instr.call 7).wellFormed s.config.regIndexMode = true) ∧
    (let s := State.reset.setSp 0x00;
      ¬ (s.config.stackCheck = .on ∧ s.sp = 0x00) ∧ (Instr.push 0x0F).wellFormed s.config.regIndexMode = true ∧
      (Instr.call 0xFE).wellFormed s.config.regIndexMode = true) ∧
    (let s := (State.created strict).setSp 0x00;
      s.config.stackCheck = .on ∧ s.sp = 0x00 ∧ (Instr.push 7).wellFormed s.config.regIndexMode = true ∧
      (Instr.call 7).wellFormed s.config.regIndexMode = true) ∧
    regOf 7 = spIndex ∧ regOf 0x0F = spIndex ∧ regOf 6 ≠ spIndex ∧ regOf 0xFE ≠ spIndex := by decide

/-- POP and RET: SP = 0xFE with the check on, SP = 0xFF with it off, and SP = 0xFF with it on, each with an accepted operand. -/
theorem witness_pop_and_ret :
    (let s := (State.created strict).setSp 0xFE;
      ¬ (s.config.stackCheck = .on ∧ s.sp = 0xFF) ∧ (Instr.pop 7).wellFormed s.config.regIndexMode = true) ∧
    (let s := State.reset.setSp 0xFF;
      ¬ (s.config.stackCheck = .on ∧ s.sp = 0xFF) ∧ (Instr.pop 0x0E).wellFormed s.config.regIndexMode = true) ∧
    (let s := (State.created strict).setSp 0xFF;
      s.config.stackCheck = .on ∧ s.sp = 0xFF ∧ (Instr.pop 7).wellFormed s.config.regIndexMode = true) ∧
    regOf 7 = spIndex ∧ regOf 0x0E ≠ spIndex := by decide

/-- PushThenPopRestores, at SP = 0x00. -/
theorem witness_PushThenPopRestores :
    let s := State.reset.setSp 0x00;
    (Instr.push 7).wellFormed s.config.regIndexMode = true ∧ ¬ (s.config.stackCheck = .on ∧ s.sp = 0x00) := by decide

/-- CallThenRetResumesAfterTheCall, with the state right after the CALL as the later one. -/
theorem witness_CallThenRetResumesAfterTheCall :
    (Instr.call 7).wellFormed (State.created strict).config.regIndexMode = true ∧
    ¬ ((State.created strict).config.stackCheck = .on ∧ (State.created strict).sp = 0x00) ∧
    ∃ t u : State, exec (.call 7) (State.created strict) = .next t ∧ u.config = t.config ∧ u.sp = t.sp ∧
      u.memRead t.sp = t.memRead t.sp :=
  ⟨by decide, by decide, _, _, rfl, rfl, rfl, rfl⟩

/-- JEQ, JNE: E set and clear. -/
theorem witness_jeq_and_jne : (0b001 : FlagBits).getLsbD 0 = true ∧ (0b110 : FlagBits).getLsbD 0 = false := by decide

/-- CMP: below, above and equal at the ends of the range. -/
theorem witness_CmpSetsExactlyOneFlag :
    (let s := State.reset.setReg 1 0xFF; (s.reg (regOf 0)).toNat < (s.reg (regOf 1)).toNat ∧
      (s.reg (regOf 0)).toNat < (s.reg (regOf 9)).toNat ∧ (s.reg (regOf 0)).toNat = (s.reg (regOf 2)).toNat) := by decide

theorem witness_CompareDecidesTheJump :
    (Instr.cmp 0 7).wellFormed State.reset.config.regIndexMode = true ∧
    (Instr.jeq 8).wellFormed State.reset.config.regIndexMode = true ∧
    ∃ t, exec (.cmp 0 7) State.reset = .next t :=
  ⟨by decide, by decide, _, rfl⟩

/-- FlagsAreWrittenByCmpAndReadByJumps: a step of no CMP; JEQ with the same E; and PUSH, where any FL will do. -/
theorem witness_FlagsAreWrittenByCmpAndReadByJumps :
    (∃ t, step (at_ dflt 0 [0x55, 0]) = .next t) ∧ (at_ dflt 0 [0x55, 0]).memRead 0 ≠ 0xA7 ∧
    (0b110 : FlagBits).getLsbD 0 = (at_ dflt 0 [0x55, 0]).fl.getLsbD 0 ∧
    (∃ t, step (at_ dflt 0 [0x45, 0]) = .next t) ∧
    (at_ dflt 0 [0x45, 0]).memRead 0 ≠ 0x55 ∧ (at_ dflt 0 [0x45, 0]).memRead 0 ≠ 0x56 ∧
    (at_ strict 0 [0xA7, 0, 7]).isRunning = true ∧ (at_ strict 0 [0xA7, 0, 7]).memRead 0 = 0xA7 ∧
    stepTo (at_ strict 0 [0xA7, 0, 7]) (fun t => t.faulted == false) :=
  ⟨⟨_, rfl⟩, by decide, by decide, ⟨_, rfl⟩, by decide, by decide, by decide, by decide, by decide⟩

/-- OnlyPushAndCallStore: a PUSH and a CALL that change a cell. -/
theorem witness_OnlyPushAndCallStore :
    (∃ t, step (at_ dflt 0 [0x45, 7]) = .next t ∧ t.memRead 0xF3 ≠ (at_ dflt 0 [0x45, 7]).memRead 0xF3) ∧
    (∃ t, step (at_ dflt 0 [0x50, 7]) = .next t ∧ t.memRead 0xF3 ≠ (at_ dflt 0 [0x50, 7]).memRead 0xF3) :=
  ⟨⟨_, rfl, by decide⟩, ⟨_, rfl, by decide⟩⟩

/-- RegisterWritersAreTheTables: LDI of R0 and of R7, and RET. -/
theorem witness_RegisterWritersAreTheTables :
    (∃ t, step (at_ dflt 0 [0x82, 0, 1]) = .next t ∧ t.reg 0 ≠ (at_ dflt 0 [0x82, 0, 1]).reg 0) ∧
    (∃ t, step (at_ dflt 0 [0x82, 7, 1]) = .next t ∧ t.reg 7 ≠ (at_ dflt 0 [0x82, 7, 1]).reg 7) ∧
    (∃ t, step (at_ dflt 0 [0x11]) = .next t ∧ t.reg 7 ≠ (at_ dflt 0 [0x11]).reg 7) :=
  ⟨⟨_, rfl, by decide⟩, ⟨_, rfl, by decide⟩, ⟨_, rfl, by decide⟩⟩

/-- FaultsArePrecise: one step for each cause. -/
theorem witness_FaultsArePrecise :
    stepTo (at_ strict 0 [0x00]) (fun t => t.faulted && t.faultCause == .unknownOpcode) ∧
    stepTo (at_ strict 0 [0x47, 8]) (fun t => t.faulted && t.faultCause == .illegalRegister) ∧
    stepTo ((at_ strict 0 [0x50, 7]).setSp 0) (fun t => t.faulted && t.faultCause == .stackOverflow) ∧
    stepTo ((at_ strict 0 [0x11]).setSp 0xFF) (fun t => t.faulted && t.faultCause == .stackUnderflow) := by decide

/-- FirstConditionIsReported: each clause, at its boundary operands, from a Running strict core. -/
theorem witness_FirstConditionIsReported :
    (at_ strict 0 []).isRunning = true ∧ (at_ strict 0 []).config = ⟨.fault, .on, .fault⟩ ∧
    (at_ strict 0 [0xA1, 8, 8]).memRead 0 ∉ opcodeTable ∧
    ((at_ strict 0 [0xA0, 8, 8]).memRead 0 ∈ opcodeTable ∧ 8 ≤ ((at_ strict 0 [0xA0, 8, 8]).memRead 1).toNat) ∧
    ((at_ strict 0 [0xA7, 7, 8]).memRead 0 = 0xA7 ∧ ((at_ strict 0 [0xA7, 7, 8]).memRead 1).toNat < 8 ∧
      8 ≤ ((at_ strict 0 [0xA7, 7, 8]).memRead 2).toNat) ∧
    ((at_ strict 0 [0x50, 7]).setSp 0x00).memRead 0 = 0x50 ∧ ((at_ strict 0 [0x50, 7]).setSp 0x00).sp = 0x00 ∧
    ((at_ strict 0 [0x46, 7]).setSp 0xFF).memRead 0 = 0x46 ∧ ((at_ strict 0 [0x46, 7]).setSp 0xFF).sp = 0xFF ∧
    ((at_ strict 0 [0x11]).setSp 0xFF).memRead 0 = 0x11 := by decide

theorem witness_DefaultConfigurationNeverFaults :
    State.reset.config = Config.default ∧ State.reset.faulted = false := by decide

/-- AtMostOneEventAStep: PRN, an unknown opcode, and a step without an event. -/
theorem witness_AtMostOneEventAStep :
    stepTo (at_ dflt 0 [0x47, 7]) (fun t => t.trace == [.out 0xF4]) ∧
    stepTo (at_ dflt 0xFF [0x00]) (fun t => t.trace == [.diag 0x00 0xFF]) ∧
    stepTo (at_ dflt 0 [0x11]) (fun t => t.trace == []) := by decide

/-- RunStatesAreExclusive, StatusShowsTheRunState, ExecutionStartsAtZero and OnlyResetLeavesFaulted: stopped cores, and the reset that leaves each. -/
theorem witness_stopped_cores :
    State.reset.halt.isRunning = false ∧ (perform .reset State.reset.halt).isRunning = true ∧
    (raise .stackOverflow 0 State.reset).faulted = true ∧
    (perform .reset (raise .stackOverflow 0 State.reset)).isRunning = true ∧
    (perform .step (raise .stackOverflow 0 State.reset)).faulted = true ∧
    ¬ (State.reset.halt.halted = true ∧ State.reset.halt.faulted = true) := by decide

/-- ExecutionStartsAtZero: a load of one HLT, and of one unknown opcode, into the reset core. -/
theorem witness_ExecutionStartsAtZero :
    (let u := perform (.load [0x01]) (perform .reset State.reset.halt);
      decode (u.memRead 0x00) (u.memRead 0x01) (u.memRead 0x02) = .ok .hlt) ∧
    (perform (.load [0xA1]) (perform .reset State.reset.halt)).memRead 0x00 ∉ opcodeTable := by decide

/-- StoresAreSeenByTheNextFetch, V-ST9: the HLT opcode is pushed over the byte after the PUSH. -/
theorem witness_StoresAreSeenByTheNextFetch :
    let s := (at_ dflt 0xF1 [0x45, 0x00]).setReg 0 0x01
    s.halted = false ∧ s.faulted = false ∧ s.memRead s.pc = 0x45 ∧ s.memRead (s.pc + 1) = 0 ∧
    (Instr.push 0).wellFormed s.config.regIndexMode = true ∧ ¬ (s.config.stackCheck = .on ∧ s.sp = 0x00) ∧
    regOf 0 ≠ spIndex ∧ s.sp - 1 = s.pc + 2 ∧
    decode (s.reg (regOf 0)) 0x00 0x00 = .ok .hlt := by decide

theorem witness_LoadWritesExactlyItsBytes :
    (List.replicate 256 (0x01 : Byte)).length ≤ 256 ∧ 256 < (List.replicate 257 (0x01 : Byte)).length := by
  rw [List.length_replicate, List.length_replicate]
  decide

/-- RunIsRepeatedStep: a stopped core, a Running one, and a run that returns. -/
theorem witness_RunIsRepeatedStep :
    State.reset.halt.isRunning = false ∧ (at_ dflt 0 [0x01]).isRunning = true ∧
    ∃ t, RunReturns (at_ dflt 0 [0x01]) t :=
  ⟨by decide, by decide, _, 1, rfl, by decide⟩

/-- StepKeepsTheInvariant and EveryHistoryKeepsTheInvariant: the reset state meets the invariant. -/
theorem witness_StepKeepsTheInvariant : CoreInv State.reset ∧ ∃ t, step State.reset = .next t :=
  ⟨⟨by decide, by decide, by decide, ⟨rfl, rfl, rfl⟩, by decide⟩, _, rfl⟩

/-- CanonicalMemoriesThatReadAlikeAreEqual: two writes in either order give the same canonical list. -/
theorem witness_CanonicalMemoriesThatReadAlikeAreEqual :
    let m := Memory.write (Memory.write [] 0xFF 1) 0x00 2
    let n := Memory.write (Memory.write [] 0x00 2) 0xFF 1
    Memory.wf m = true ∧ Memory.wf n = true ∧ (∀ addr : Byte, Memory.read m addr.toNat = Memory.read n addr.toNat) := by
  intro m n
  have h : m = n := by decide
  exact ⟨by decide, by decide, fun addr => by rw [h]⟩

end Sys2Proof.Tests
end

section
/-! SUPPORT. The step of a given state, one equation per branch of R54 to R56, and what `perform .step` leaves. -/

namespace Sys2Proof.Machine

theorem step_of_not_running {s : State} (hr : s.isRunning = false) : step s = .next s := by
  simp [step, hr]

theorem fetchByte_zero (s : State) : fetchByte s 0 = s.memRead s.pc := by
  simp [fetchByte]

theorem decode_fetchByte (s : State) : decode (fetchByte s 0) (fetchByte s 1) (fetchByte s 2) =
    decode (s.memRead s.pc) (s.memRead (s.pc + 1)) (s.memRead (s.pc + 2)) := by
  rw [fetchByte_zero]
  rfl

theorem step_of_decode_ok {s : State} {i : Instr} (hr : s.isRunning = true)
    (hd : decode (s.memRead s.pc) (s.memRead (s.pc + 1)) (s.memRead (s.pc + 2)) = .ok i) :
    step s = exec i s := by
  unfold step
  rw [if_pos hr, decode_fetchByte, hd]

theorem step_of_unknownOpcode {s : State} (hr : s.isRunning = true) (hop : s.memRead s.pc ∉ opcodeTable) :
    step s = .next (execUnknown (s.memRead s.pc) s) := by
  obtain ⟨i, -, -, hmem⟩ | ⟨hd, -⟩ := decode_cases (s.memRead s.pc) (s.memRead (s.pc + 1)) (s.memRead (s.pc + 2))
  · exact absurd hmem hop
  · unfold step
    rw [if_pos hr, decode_fetchByte, hd, fetchByte_zero]

theorem perform_step_of_next {s t : State} (h : step s = .next t) : perform .step s = t := by
  simp [perform, afterwards, h]

theorem perform_step_of_not_running {s : State} (hr : s.isRunning = false) : perform .step s = s :=
  perform_step_of_next (step_of_not_running hr)

theorem State.isRunning_of_halted {s : State} (hh : s.halted = true) : s.isRunning = false := by
  simp [State.isRunning, hh]

theorem State.status_eq_running_iff (s : State) : s.status = .running ↔ s.isRunning = true := by
  cases hf : s.faulted <;> cases hh : s.halted <;> simp [State.status, State.isRunning, hf, hh]

end Sys2Proof.Machine
end

section
/-! SUPPORT. A step keeps the fault fields, or its whole effect is one `raise` for a condition that holds before it
(R80 to R85). -/

namespace Sys2Proof.Machine

/-- In `s` condition `c` can arise with payload `info`: the configuration enables it and its trigger holds (R82 to R84). -/
inductive FaultArises (s : State) : Condition → Byte → Prop where
  | unknownOpcode (hpolicy : s.config.unknownOpcodePolicy = .fault) (hop : s.memRead s.pc ∉ opcodeTable) :
      FaultArises s .unknownOpcode (s.memRead s.pc)
  | illegalRegister {r : Byte} (hmode : s.config.regIndexMode = .fault) (h8 : 8 ≤ r.toNat) :
      FaultArises s .illegalRegister r
  | stackOverflow (hcheck : s.config.stackCheck = .on) (hsp : s.sp = 0x00) : FaultArises s .stackOverflow 0x00
  | stackUnderflow (hcheck : s.config.stackCheck = .on) (hsp : s.sp = 0xFF) : FaultArises s .stackUnderflow 0xFF

/-- The fault fields and the configuration are the same in `t` as in `s`. -/
structure SameFaultRecord (s t : State) : Prop where
  faulted    : t.faulted = s.faulted
  faultCause : t.faultCause = s.faultCause
  faultPc    : t.faultPc = s.faultPc
  faultInfo  : t.faultInfo = s.faultInfo
  config     : t.config = s.config

/-- `t` keeps the fault record of `s`, or is `s` with one condition raised that arises in `s`. -/
def KeepsRecordOrRaises (s t : State) : Prop :=
  SameFaultRecord s t ∨ ∃ c info, FaultArises s c info ∧ t = raise c info s

theorem KeepsRecordOrRaises.raised {s : State} {c : Condition} {info : Byte} (h : FaultArises s c info) :
    KeepsRecordOrRaises s (raise c info s) := .inr ⟨c, info, h, rfl⟩

theorem withReg_keepsRecordOrRaises (r : Byte) {s : State} {k : Reg → State}
    (hk : ∀ d, KeepsRecordOrRaises s (k d)) : KeepsRecordOrRaises s (withReg r s k) := by
  obtain ⟨-, e⟩ | ⟨hmode, h8, e⟩ := withReg_cases r s k <;> rw [e]
  · exact hk _
  · exact .raised (.illegalRegister hmode h8)

theorem checkPush_keepsRecordOrRaises {s k : State} (hk : KeepsRecordOrRaises s k) :
    KeepsRecordOrRaises s (checkPush s k) := by
  obtain ⟨-, e⟩ | ⟨hcheck, hsp, e⟩ := checkPush_cases s k <;> rw [e]
  · exact hk
  · exact .raised (.stackOverflow hcheck hsp)

theorem checkPop_keepsRecordOrRaises {s k : State} (hk : KeepsRecordOrRaises s k) :
    KeepsRecordOrRaises s (checkPop s k) := by
  obtain ⟨-, e⟩ | ⟨hcheck, hsp, e⟩ := checkPop_cases s k <;> rw [e]
  · exact hk
  · exact .raised (.stackUnderflow hcheck hsp)

/-- An instruction has a next state, which keeps the fault record unless an operand or the stack check raises. -/
theorem exec_keepsRecordOrRaises (i : Instr) (s : State) :
    ∃ t, exec i s = .next t ∧ KeepsRecordOrRaises s t := by
  cases i with
  | hlt => exact ⟨_, rfl, .inl ⟨rfl, rfl, rfl, rfl, rfl⟩⟩
  | ldi a imm | prn a | jmp a | jeq a | jne a =>
    exact ⟨_, rfl, withReg_keepsRecordOrRaises a fun _ => .inl ⟨rfl, rfl, rfl, rfl, rfl⟩⟩
  | push a | call a =>
    exact ⟨_, rfl, withReg_keepsRecordOrRaises a fun _ =>
      checkPush_keepsRecordOrRaises (.inl ⟨rfl, rfl, rfl, rfl, rfl⟩)⟩
  | pop a =>
    exact ⟨_, rfl, withReg_keepsRecordOrRaises a fun _ =>
      checkPop_keepsRecordOrRaises (.inl ⟨rfl, rfl, rfl, rfl, rfl⟩)⟩
  | ret => exact ⟨_, rfl, checkPop_keepsRecordOrRaises (.inl ⟨rfl, rfl, rfl, rfl, rfl⟩)⟩
  | add a b | mul a b | cmp a b =>
    exact ⟨_, rfl, withReg_keepsRecordOrRaises a fun _ => withReg_keepsRecordOrRaises b fun _ =>
      .inl ⟨rfl, rfl, rfl, rfl, rfl⟩⟩

theorem execUnknown_keepsRecordOrRaises {s : State} (hop : s.memRead s.pc ∉ opcodeTable) :
    KeepsRecordOrRaises s (execUnknown (s.memRead s.pc) s) := by
  obtain ⟨-, e⟩ | ⟨hpolicy, e⟩ := execUnknown_cases (s.memRead s.pc) s <;> rw [e]
  · exact .inl ⟨rfl, rfl, rfl, rfl, rfl⟩
  · exact .raised (.unknownOpcode hpolicy hop)

/-- A step outside Running changes nothing; a step of a Running core keeps the fault record or raises. -/
theorem step_keepsRecordOrRaises {s t : State} (h : step s = .next t) :
    (s.isRunning = false ∧ t = s) ∨ (s.isRunning = true ∧ KeepsRecordOrRaises s t) := by
  obtain ⟨hr, e⟩ | ⟨hr, i, -, -, e⟩ | ⟨hr, hop, e⟩ := step_cases s <;> rw [e] at h
  · exact .inl ⟨hr, (Host.Outcome.next.inj h).symm⟩
  · obtain ⟨u, hu, hkeep⟩ := exec_keepsRecordOrRaises i s
    cases hu.symm.trans h
    exact .inr ⟨hr, hkeep⟩
  · cases h
    exact .inr ⟨hr, execUnknown_keepsRecordOrRaises hop⟩

/-- Every step has a next state. -/
theorem exists_step_eq_next (s : State) : ∃ t, step s = .next t := by
  obtain ⟨-, e⟩ | ⟨-, i, -, -, e⟩ | ⟨-, -, e⟩ := step_cases s
  · exact ⟨_, e⟩
  · obtain ⟨t, ht, -⟩ := exec_keepsRecordOrRaises i s
    exact ⟨t, e.trans ht⟩
  · exact ⟨_, e⟩

end Sys2Proof.Machine
end

section
/-! The obligation of R22, clause by clause over the host operations. -/

namespace Sys2Proof.Machine

/-- Of the host operations only reset clears `halted`: a load writes memory alone, and a Halted core does not step. -/
theorem perform_halted_of_ne_reset {s : State} {op : HostOp} (hop : op ≠ .reset) (hh : s.halted = true) :
    (perform op s).halted = true := by
  cases op with
  | reset => exact absurd rfl hop
  | load bytes => rwa [perform_load_only_mem bytes s]
  | step => rwa [perform_step_of_not_running (State.isRunning_of_halted hh)]

/-- A step keeps Halted and Faulted apart: what raises was Running before, and `raise` leaves `halted` as it is. -/
theorem step_not_halted_and_faulted {s t : State} (h : step s = .next t)
    (hs : ¬ (s.halted = true ∧ s.faulted = true)) : ¬ (t.halted = true ∧ t.faulted = true) := by
  obtain ⟨-, rfl⟩ | ⟨hr, hkeep⟩ := step_keepsRecordOrRaises h
  · exact hs
  · obtain ⟨hnotHalted, hnotFaulted⟩ := s.isRunning_iff.mp hr
    obtain hsame | ⟨c, info, -, rfl⟩ := hkeep
    · simp [hsame.faulted, hnotFaulted]
    · simp [hnotHalted]

theorem perform_not_halted_and_faulted {s : State} (op : HostOp) (hs : ¬ (s.halted = true ∧ s.faulted = true)) :
    ¬ ((perform op s).halted = true ∧ (perform op s).faulted = true) := by
  cases op with
  | reset => simp [perform, resetOp, State.reset]
  | load bytes =>
    rw [perform_load_only_mem bytes s]
    exact hs
  | step =>
    obtain ⟨t, ht⟩ := exists_step_eq_next s
    rw [perform_step_of_next ht]
    exact step_not_halted_and_faulted ht hs

/-- Settles O39: a step that raises was Running, so `halted` was clear, and outside Running a step changes nothing. -/
theorem runStatesAreExclusive : Obligations.RunStatesAreExclusive := by
  refine ⟨fun s => ⟨s.isRunning_iff, s.status_eq_running_iff⟩, fun s => ⟨_, rfl, rfl⟩, fun s op hh hclear => ?_,
    fun s op => perform_not_halted_and_faulted op, fun s => perform_step_of_not_running⟩
  by_contra hop
  simp [perform_halted_of_ne_reset hop hh] at hclear

end Sys2Proof.Machine
end

section
/-! The obligation of R20. The one idea is noninterference: a step that is no CMP commutes with replacing FL, as long as
JEQ and JNE see the same E. Replacing FL by itself then shows that such a step leaves FL alone. -/

namespace Sys2Proof.Machine

/-! ### The shared operations commute with replacing FL -/

/-- `withReg` takes the same branch whatever FL is, so a relation that holds on both branches holds of the results. -/
theorem withReg_setFl_related (R : State → State → Prop) (r : Byte) (s : State) (f : FlagBits) {k k' : Reg → State}
    (hraise : R (raise .illegalRegister r s) ((raise .illegalRegister r s).setFl f)) (hk : ∀ d, R (k d) (k' d)) :
    R (withReg r s k) (withReg r (s.setFl f) k') := by
  unfold withReg
  rw [State.setFl_config]
  split
  · exact hraise
  · exact hk _

theorem withReg_setFl (r : Byte) (s : State) (f : FlagBits) {k k' : Reg → State} (hk : ∀ d, k' d = (k d).setFl f) :
    withReg r (s.setFl f) k' = (withReg r s k).setFl f :=
  withReg_setFl_related (fun t t' => t' = t.setFl f) r s f rfl hk

theorem checkPush_setFl (s : State) (f : FlagBits) {k k' : State} (hk : k' = k.setFl f) :
    checkPush (s.setFl f) k' = (checkPush s k).setFl f := by
  subst hk
  exact (apply_ite (fun t : State => t.setFl f) (pushRaises s = true) (raise .stackOverflow s.sp s) k).symm

theorem checkPop_setFl (s : State) (f : FlagBits) {k k' : State} (hk : k' = k.setFl f) :
    checkPop (s.setFl f) k' = (checkPop s k).setFl f := by
  subst hk
  exact (apply_ite (fun t : State => t.setFl f) (popRaises s = true) (raise .stackUnderflow s.sp s) k).symm

theorem execUnknown_setFl (op : Byte) (s : State) (f : FlagBits) :
    execUnknown op (s.setFl f) = (execUnknown op s).setFl f := by
  unfold execUnknown
  rw [State.setFl_config]
  split <;> rfl

/-! ### Instructions and steps -/

/-- Every instruction but CMP commutes with replacing FL; JEQ and JNE need the same E. -/
theorem exec_setFl {i : Instr} {s : State} {f : FlagBits} (hcmp : i.opcode ≠ 0xA7)
    (hE : flE f = flE s.fl ∨ (i.opcode ≠ 0x55 ∧ i.opcode ≠ 0x56)) :
    ∃ t t', exec i s = .next t ∧ exec i (s.setFl f) = .next t' ∧ t' = t.setFl f := by
  cases i with
  | hlt => exact ⟨_, _, rfl, rfl, rfl⟩
  | ldi a imm | prn a | jmp a => exact ⟨_, _, rfl, rfl, withReg_setFl a s f fun _ => rfl⟩
  | push a | call a => exact ⟨_, _, rfl, rfl, withReg_setFl a s f fun _ => checkPush_setFl s f rfl⟩
  | pop a => exact ⟨_, _, rfl, rfl, withReg_setFl a s f fun _ => checkPop_setFl s f rfl⟩
  | ret => exact ⟨_, _, rfl, rfl, checkPop_setFl s f rfl⟩
  | jeq a =>
    have hsame : flE f = flE s.fl := hE.resolve_right fun h => h.1 rfl
    exact ⟨_, _, rfl, rfl, withReg_setFl a s f fun _ => by rw [State.setFl_fl, hsame]; rfl⟩
  | jne a =>
    have hsame : flE f = flE s.fl := hE.resolve_right fun h => h.2 rfl
    exact ⟨_, _, rfl, rfl, withReg_setFl a s f fun _ => by rw [State.setFl_fl, hsame]; rfl⟩
  | add a b | mul a b => exact ⟨_, _, rfl, rfl, withReg_setFl a s f fun _ => withReg_setFl b s f fun _ => rfl⟩
  | cmp a b => exact absurd rfl hcmp

/-- CMP's result does not depend on FL, unless it raises: then FL stays what it was. -/
theorem exec_cmp_setFl (a b : Byte) (s : State) (f : FlagBits) :
    ∃ t t', exec (.cmp a b) s = .next t ∧ exec (.cmp a b) (s.setFl f) = .next t' ∧
      (t' = t ∨ (t.faulted = true ∧ t' = t.setFl f)) :=
  ⟨_, _, rfl, rfl,
    withReg_setFl_related (fun t t' => t' = t ∨ (t.faulted = true ∧ t' = t.setFl f)) a s f (.inr ⟨rfl, rfl⟩) fun _ =>
      withReg_setFl_related (fun t t' => t' = t ∨ (t.faulted = true ∧ t' = t.setFl f)) b s f (.inr ⟨rfl, rfl⟩)
        fun _ => .inl rfl⟩

/-- A step that fetches no CMP commutes with replacing FL, when a fetched JEQ or JNE sees the same E. -/
theorem step_setFl {s t : State} {f : FlagBits} (h : step s = .next t) (hcmp : s.memRead s.pc ≠ 0xA7)
    (hE : flE f = flE s.fl ∨ (s.memRead s.pc ≠ 0x55 ∧ s.memRead s.pc ≠ 0x56)) :
    step (s.setFl f) = .next (t.setFl f) := by
  obtain ⟨hr, e⟩ | ⟨hr, i, hd, ho, e⟩ | ⟨hr, hop, e⟩ := step_cases s <;> rw [e] at h
  · cases h
    exact step_of_not_running hr
  · rw [← ho] at hcmp hE
    obtain ⟨u, _, hu, hu', rfl⟩ := exec_setFl hcmp hE
    cases hu.symm.trans h
    exact (step_of_decode_ok (s := s.setFl f) hr hd).trans hu'
  · cases h
    rw [← execUnknown_setFl]
    exact step_of_unknownOpcode (s := s.setFl f) hr hop

/-- Only CMP writes FL: any other step commutes with setting FL to the value it has. -/
theorem step_fl_of_ne_cmp {s t : State} (h : step s = .next t) (hcmp : s.memRead s.pc ≠ 0xA7) : t.fl = s.fl := by
  have hself : step s = .next (t.setFl s.fl) := step_setFl (f := s.fl) h hcmp (.inl rfl)
  have ht : t = t.setFl s.fl := Host.Outcome.next.inj (h.symm.trans hself)
  rw [ht, State.setFl_fl]

theorem eq_cmp_of_opcode {i : Instr} (h : i.opcode = 0xA7) : ∃ a b, i = .cmp a b := by
  cases i with
  | cmp a b => exact ⟨a, b, rfl⟩
  | _ => simp [Instr.opcode] at h

/-- A Running core that fetches CMP writes the same FL whatever FL was, unless the CMP raises. -/
theorem step_cmp_setFl {s t : State} (f : FlagBits) (h : step s = .next t) (hr : s.isRunning = true)
    (hcmp : s.memRead s.pc = 0xA7) :
    step (s.setFl f) = .next t ∨ (t.faulted = true ∧ step (s.setFl f) = .next (t.setFl f)) := by
  obtain ⟨hr', -⟩ | ⟨-, i, hd, ho, e⟩ | ⟨-, hop, -⟩ := step_cases s
  · simp [hr] at hr'
  · obtain ⟨a, b, rfl⟩ := eq_cmp_of_opcode (ho.trans hcmp)
    obtain ⟨u, u', hu, hu', hcases⟩ := exec_cmp_setFl a b s f
    cases hu.symm.trans (e.symm.trans h)
    have hstep : step (s.setFl f) = .next u' := (step_of_decode_ok (s := s.setFl f) hr hd).trans hu'
    obtain rfl | ⟨hf, rfl⟩ := hcases
    · exact .inl hstep
    · exact .inr ⟨hf, hstep⟩
  · exact absurd (by decide : (0xA7 : Byte) ∈ opcodeTable) (hcmp ▸ hop)

/-- A step under another FL differs in FL alone, and not there when a CMP wrote it. -/
theorem step_reads_only_E {s t : State} {f : FlagBits} (h : step s = .next t)
    (hE : flE f = flE s.fl ∨ (s.memRead s.pc ≠ 0x55 ∧ s.memRead s.pc ≠ 0x56)) :
    ∃ t', step (s.setFl f) = .next t' ∧ t'.setFl t.fl = t ∧
      (s.isRunning = true → s.memRead s.pc = 0xA7 → t.faulted = false → t'.fl = t.fl) := by
  cases hr : s.isRunning with
  | false =>
    cases (step_of_not_running hr).symm.trans h
    exact ⟨_, step_of_not_running (s := s.setFl f) hr, rfl, nofun⟩
  | true =>
    by_cases hcmp : s.memRead s.pc = 0xA7
    · obtain h' | ⟨hf, h'⟩ := step_cmp_setFl f h hr hcmp
      · exact ⟨t, h', rfl, fun _ _ _ => rfl⟩
      · exact ⟨_, h', rfl, fun _ _ hnf => by simp [hf] at hnf⟩
    · exact ⟨_, step_setFl h hcmp hE, rfl, fun _ hc => absurd hc hcmp⟩

/-- Settles O32: a step but CMP commutes with replacing FL by a value of the same E, CMP's result does not depend on FL,
and a load writes memory alone. -/
theorem flagsAreWrittenByCmpAndReadByJumps : Obligations.FlagsAreWrittenByCmpAndReadByJumps :=
  ⟨fun _ _ => step_fl_of_ne_cmp, fun _ => rfl,
    fun s bytes => by rw [perform_load_only_mem bytes s], fun _ _ _ => step_reads_only_E⟩

end Sys2Proof.Machine
end

section
/-! The obligation of R45: bits 7 and 6 of an opcode byte as ranges of its value. -/

namespace Sys2Proof

theorem getLsbD_seven_iff (op : Byte) : op.getLsbD 7 = true ↔ 128 ≤ op.toNat := by
  have hlt : op.toNat < 256 := op.isLt
  rw [BitVec.getLsbD, Nat.testBit_eq_decide_div_mod_eq, decide_eq_true_iff]
  omega

/-- Below 128 bit 7 is clear, so bit 6 alone says which half of the range the byte is in. -/
theorem getLsbD_six_iff {op : Byte} (hlt : op.toNat < 128) : op.getLsbD 6 = true ↔ 64 ≤ op.toNat := by
  rw [BitVec.getLsbD, Nat.testBit_eq_decide_div_mod_eq, decide_eq_true_iff]
  omega

theorem instrLength_of_ge_128 {op : Byte} (h : 128 ≤ op.toNat) : instrLength op = 3 :=
  if_pos ((getLsbD_seven_iff op).mpr h)

theorem instrLength_of_lt_128 {op : Byte} (h : op.toNat < 128) :
    instrLength op = if op.getLsbD 6 then 2 else 1 :=
  if_neg fun h7 => Nat.not_le.mpr h ((getLsbD_seven_iff op).mp h7)

/-- Settles O3, one range at a time: bit 7 is set from 128 on, and below that bit 6 is set from 64 on. -/
theorem lengthFollowsBitsSevenAndSix : Obligations.LengthFollowsBitsSevenAndSix := by
  refine fun op => ⟨instrLength_of_ge_128, fun h64 h128 => ?_, fun h64 => ?_⟩
  · rw [instrLength_of_lt_128 h128, if_pos ((getLsbD_six_iff h128).mpr h64)]
  · have h128 : op.toNat < 128 := h64.trans (by decide)
    rw [instrLength_of_lt_128 h128, if_neg fun h6 => Nat.not_le.mpr h64 ((getLsbD_six_iff h128).mp h6)]

end Sys2Proof
end

section
/-! The obligation of R49: the table's rows one by one, and every opcode byte outside them. -/

namespace Sys2Proof

/-- R50: an opcode byte outside the table is refused by name. -/
theorem decode_of_not_mem_opcodeTable {op : Byte} (a b : Byte) (hop : op ∉ opcodeTable) :
    decode op a b = .error (.unknownOpcode op) := by
  obtain ⟨-, -, -, hmem⟩ | ⟨hd, -⟩ := Machine.decode_cases op a b
  · exact absurd hmem hop
  · exact hd

/-- Settles O1: each row, in the table's order, computes for all operands, and every other opcode byte is refused by
`decode_cases`. -/
theorem opcodeMapIsTheFixedTable : Obligations.OpcodeMapIsTheFixedTable := by
  refine fun a b => ⟨?_, fun op hop => decode_of_not_mem_opcodeTable a b hop⟩
  simp only [List.forall_mem_cons]
  refine ⟨?hlt, ?ldi, ?prn, ?push, ?pop, ?call, ?ret, ?jmp, ?jeq, ?jne, ?add, ?mul, ?cmp, List.forall_mem_nil _⟩ <;>
    exact ⟨rfl, rfl, rfl, rfl⟩

end Sys2Proof
end

section
/-! SUPPORT. What the generic advance does to pc (R57), frames built up one update at a time, and what the one register
operand of an instruction decides (R47, R84). -/

namespace Sys2Proof.Machine

/-! ### The advance and the frame -/

/-- The generic advance moves pc by the opcode's length, modulo 256 (R57). -/
theorem State.advance_pc_toNat (s : State) (op : Byte) :
    (s.advance op).pc.toNat = (s.pc.toNat + instrLength op) % 256 := by
  simp [BitVec.toNat_add]

theorem Unchanged.refl (rs : List Reg) (cells : List Byte) (s : State) : Unchanged rs cells s s :=
  ⟨fun _ _ => rfl, fun _ _ => rfl, rfl, rfl, rfl, rfl, rfl⟩

section frame
variable {rs : List Reg} {cells : List Byte} {s t : State} (h : Unchanged rs cells s t)
include h

theorem Unchanged.halt : Unchanged rs cells s t.halt :=
  ⟨h.regs, h.mem, h.faulted, h.faultCause, h.faultPc, h.faultInfo, h.config⟩

theorem Unchanged.advance (op : Byte) : Unchanged rs cells s (t.advance op) :=
  ⟨h.regs, h.mem, h.faulted, h.faultCause, h.faultPc, h.faultInfo, h.config⟩

theorem Unchanged.setReg {r : Reg} (hr : r ∈ rs) (v : Byte) : Unchanged rs cells s (t.setReg r v) where
  regs q hq := by
    have hqr : q ≠ r := fun e => hq (e ▸ hr)
    rw [State.setReg_reg_other t hqr, h.regs q hq]
  mem := h.mem
  faulted := h.faulted
  faultCause := h.faultCause
  faultPc := h.faultPc
  faultInfo := h.faultInfo
  config := h.config

end frame

/-! ### Instructions with one register operand -/

theorem wellFormed_iff_of_regOperands_singleton {i : Instr} {a : Byte} (hops : i.regOperands = [a])
    (mode : RegIndexMode) : i.wellFormed mode = true ↔ regOperandAccepted mode a = true := by
  simp [Instr.wellFormed, hops]

/-- An instruction that first reads its one register operand through RegIndex raises where RegIndex does. -/
theorem illegalRegisterRaised_of_withReg {i : Instr} {a : Byte} {s : State} {k : Reg → State}
    (hops : i.regOperands = [a]) (hexec : exec i s = .next (withReg a s k)) : IllegalRegisterRaised i s := by
  intro r hmode hfind
  have hmem := List.mem_of_find?_eq_some hfind
  have h8 := List.find?_some hfind
  rw [hops, List.mem_singleton] at hmem
  subst hmem
  rw [hexec, withReg_of_illegal hmode (of_decide_eq_true h8)]

end Sys2Proof.Machine
end

section
/-! SUPPORT. What an instruction leaves of the run state: only HLT writes `halted`, and in the default configuration no
condition arises, so none writes `faulted`. -/

namespace Sys2Proof.Machine

theorem withReg_halted (r : Byte) {s : State} {k : Reg → State} (hk : ∀ d, (k d).halted = s.halted) :
    (withReg r s k).halted = s.halted := by
  obtain ⟨-, e⟩ | ⟨-, -, e⟩ := withReg_cases r s k <;> rw [e]
  · exact hk _
  · rfl

theorem checkPush_halted {s k : State} (hk : k.halted = s.halted) : (checkPush s k).halted = s.halted := by
  obtain ⟨-, e⟩ | ⟨-, -, e⟩ := checkPush_cases s k <;> rw [e]
  · exact hk
  · rfl

theorem checkPop_halted {s k : State} (hk : k.halted = s.halted) : (checkPop s k).halted = s.halted := by
  obtain ⟨-, e⟩ | ⟨-, -, e⟩ := checkPop_cases s k <;> rw [e]
  · exact hk
  · rfl

/-- Every instruction but HLT leaves `halted` alone, whether it completes or raises. -/
theorem exec_halted_of_ne_hlt {i : Instr} {s t : State} (hi : i ≠ .hlt) (h : exec i s = .next t) :
    t.halted = s.halted := by
  cases i with
  | hlt => exact absurd rfl hi
  | ldi a imm | prn a | jmp a | jeq a | jne a =>
    cases h
    exact withReg_halted a fun _ => rfl
  | push a | call a =>
    cases h
    exact withReg_halted a fun _ => checkPush_halted rfl
  | pop a =>
    cases h
    exact withReg_halted a fun _ => checkPop_halted rfl
  | ret =>
    cases h
    exact checkPop_halted rfl
  | add a b | mul a b | cmp a b =>
    cases h
    exact withReg_halted a fun _ => withReg_halted b fun _ => rfl

/-- The default configuration enables no condition: `skip`, `mask` and `off` each shut one kind out. -/
theorem not_faultArises_of_default {s : State} (hc : s.config = Config.default) (c : Condition) (info : Byte) :
    ¬ FaultArises s c info := by
  intro h
  cases h with
  | unknownOpcode hpolicy => simp [hc, Config.default] at hpolicy
  | illegalRegister hmode => simp [hc, Config.default] at hmode
  | stackOverflow hcheck | stackUnderflow hcheck => simp [hc, Config.default] at hcheck

theorem KeepsRecordOrRaises.sameFaultRecord_of_default {s t : State} (h : KeepsRecordOrRaises s t)
    (hc : s.config = Config.default) : SameFaultRecord s t :=
  h.resolve_right fun ⟨c, info, harises, _⟩ => not_faultArises_of_default hc c info harises

theorem exec_faulted_of_default {i : Instr} {s t : State} (hc : s.config = Config.default) (h : exec i s = .next t) :
    t.faulted = s.faulted := by
  obtain ⟨u, hu, hkeep⟩ := exec_keepsRecordOrRaises i s
  cases hu.symm.trans h
  exact (hkeep.sameFaultRecord_of_default hc).faulted

/-- In the default configuration only HLT leaves Running. -/
theorem exec_isRunning_of_default {i : Instr} {s t : State} (hi : i ≠ .hlt) (hc : s.config = Config.default)
    (h : exec i s = .next t) : t.isRunning = s.isRunning := by
  rw [State.isRunning, exec_halted_of_ne_hlt hi h, exec_faulted_of_default hc h, State.isRunning]

end Sys2Proof.Machine
end

section
/-! The obligations of R60 and R61. -/

namespace Sys2Proof.Machine

/-- Settles O16: HLT is `halt` and the advance of a one-byte opcode; a Halted core does not step; and of the other
instructions none writes `halted`, nor `faulted` in the default configuration. -/
theorem hltHaltsAndAdvances : Obligations.HltHaltsAndAdvances := by
  refine ⟨fun s => ⟨_, rfl, rfl, ?pc, rfl, rfl, ?frame⟩, fun s hh => ?idle, fun s op hh hop => ?stays,
    fun s => rfl, fun i s t hi h => ⟨?halted, fun hc hr => ?running⟩⟩
  case pc => exact State.advance_pc_toNat s.halt Opcode.hlt
  case frame => exact (Unchanged.refl [] [] s).halt.advance _
  case idle => exact step_of_not_running (State.isRunning_of_halted hh)
  case stays => exact perform_halted_of_ne_reset hop hh
  case halted => exact exec_halted_of_ne_hlt hi h
  case running => rw [exec_isRunning_of_default hi hc h, hr]

/-- Settles O17: an accepted operand byte makes LDI one register write and the advance of a three-byte opcode, and
RegIndex raises for the rest. -/
theorem ldiLoadsTheImmediate : Obligations.LdiLoadsTheImmediate := by
  refine fun a imm s => ⟨fun hwf => ?completes, illegalRegisterRaised_of_withReg rfl rfl⟩
  have haccepted := (wellFormed_iff_of_regOperands_singleton rfl _).mp hwf
  have hexec : exec (.ldi a imm) s = .next ((s.setReg (regOf a) imm).advance Opcode.ldi) :=
    congrArg Host.Outcome.next (withReg_of_accepted haccepted _)
  refine ⟨_, hexec, State.setReg_reg_same s (regOf a) imm, ?pc, rfl, rfl, rfl, ?frame⟩
  case pc => exact State.advance_pc_toNat (s.setReg (regOf a) imm) Opcode.ldi
  case frame => exact ((Unchanged.refl [regOf a] [] s).setReg (List.mem_singleton_self _) imm).advance _

end Sys2Proof.Machine
end

section
/-! SUPPORT. An instruction that reads one register operand completes when the operand is accepted, and what the two
paths of a conditional jump leave in pc (R70, R71). -/

namespace Sys2Proof.Machine

/-- The counterpart of `illegalRegisterRaised_of_withReg`: an accepted operand lets the instruction go on with the
register it selects. -/
theorem exec_of_withReg_of_wellFormed {i : Instr} {a : Byte} {s : State} {k : Reg → State}
    (hops : i.regOperands = [a]) (hexec : exec i s = .next (withReg a s k))
    (hwf : i.wellFormed s.config.regIndexMode = true) : exec i s = .next (k (regOf a)) := by
  rw [hexec, withReg_of_accepted ((wellFormed_iff_of_regOperands_singleton hops _).mp hwf)]

theorem Unchanged.setPc {rs : List Reg} {cells : List Byte} {s t : State} (h : Unchanged rs cells s t) (v : Byte) :
    Unchanged rs cells s (t.setPc v) :=
  ⟨h.regs, h.mem, h.faulted, h.faultCause, h.faultPc, h.faultInfo, h.config⟩

theorem jumpIf_pc_of_taken {taken : Bool} (h : taken = true) (r : Reg) (s : State) :
    (jumpIf taken r s).pc = s.reg r :=
  if_pos h

theorem jumpIf_pc_toNat_of_not_taken {taken : Bool} (h : taken = false) (r : Reg) (s : State) :
    (jumpIf taken r s).pc.toNat = (s.pc.toNat + 2) % 256 := by
  simp [h, BitVec.toNat_add]

theorem jumpIf_unchanged (taken : Bool) (r : Reg) (s : State) : Unchanged [] [] s (jumpIf taken r s) :=
  (Unchanged.refl [] [] s).setPc _

end Sys2Proof.Machine
end

section
/-! The obligations of R69, R70 and R71. -/

namespace Sys2Proof.Machine

/-- Settles O25: an accepted operand byte makes JMP one write of pc, and RegIndex raises for the rest. -/
theorem jmpGoesToTheRegister : Obligations.JmpGoesToTheRegister := by
  refine fun a s => ⟨fun hwf => ?completes, illegalRegisterRaised_of_withReg rfl rfl⟩
  have hexec : exec (.jmp a) s = .next (s.setPc (s.reg (regOf a))) := exec_of_withReg_of_wellFormed rfl rfl hwf
  exact ⟨_, hexec, rfl, rfl, rfl, rfl, (Unchanged.refl [] [] s).setPc _⟩

/-- Settles O26: an accepted operand byte makes JEQ the conditional jump on E, and RegIndex raises for the rest before
the condition is looked at. -/
theorem jeqJumpsIffEqual : Obligations.JeqJumpsIffEqual := by
  refine fun a s => ⟨fun hwf => ?completes, illegalRegisterRaised_of_withReg rfl rfl⟩
  have hexec : exec (.jeq a) s = .next (jumpIf (flE s.fl) (regOf a) s) := exec_of_withReg_of_wellFormed rfl rfl hwf
  refine ⟨_, hexec, fun hE => ?equal, fun hE => ?notEqual, rfl, rfl, rfl, jumpIf_unchanged _ _ s⟩
  case equal => exact jumpIf_pc_of_taken hE _ s
  case notEqual => exact jumpIf_pc_toNat_of_not_taken hE _ s

/-- Settles O27: an accepted operand byte makes JNE the conditional jump on the complement of E, and RegIndex raises for
the rest before the condition is looked at. -/
theorem jneJumpsIffNotEqual : Obligations.JneJumpsIffNotEqual := by
  refine fun a s => ⟨fun hwf => ?completes, illegalRegisterRaised_of_withReg rfl rfl⟩
  have hexec : exec (.jne a) s = .next (jumpIf (!flE s.fl) (regOf a) s) := exec_of_withReg_of_wellFormed rfl rfl hwf
  refine ⟨_, hexec, fun hE => ?notEqual, fun hE => ?equal, rfl, rfl, rfl, jumpIf_unchanged _ _ s⟩
  case notEqual => exact jumpIf_pc_of_taken (congrArg not hE) _ s
  case equal => exact jumpIf_pc_toNat_of_not_taken (congrArg not hE) _ s

end Sys2Proof.Machine
end

section
/-! SUPPORT. What an instruction with two register operands does with them (R46, R47, R84), ADD's and MUL's whole effect
(R74, R75), and the flags of each comparison (R76). -/

namespace Sys2Proof.Machine

/-! ### Instructions with two register operands -/

section twoOperands
variable {i : Instr} {a b : Byte} {s : State} {k : Reg → Reg → State}

/-- When both operands are accepted, the instruction goes on with the registers they select. -/
theorem exec_of_withReg_withReg_of_wellFormed (hops : i.regOperands = [a, b])
    (hexec : exec i s = .next (withReg a s fun d => withReg b s fun r => k d r))
    (hwf : i.wellFormed s.config.regIndexMode = true) : exec i s = .next (k (regOf a) (regOf b)) := by
  obtain ⟨ha, hb⟩ : regOperandAccepted s.config.regIndexMode a = true ∧
      regOperandAccepted s.config.regIndexMode b = true := by simpa [Instr.wellFormed, hops] using hwf
  rw [hexec, withReg_of_accepted ha, withReg_of_accepted hb]

/-- An instruction that first reads `a` and then `b` through RegIndex raises for `a` where `a` is illegal, and for `b`
only where `a` is not. -/
theorem illegalRegisterRaised_of_withReg_withReg (hops : i.regOperands = [a, b])
    (hexec : exec i s = .next (withReg a s fun d => withReg b s fun r => k d r)) : IllegalRegisterRaised i s := by
  intro r hmode hfind
  rw [hops] at hfind
  by_cases ha : 8 ≤ a.toNat
  · obtain rfl : a = r := by simpa [ha] using hfind
    rw [hexec, withReg_of_illegal hmode ha]
  · obtain ⟨hb, rfl⟩ : 8 ≤ b.toNat ∧ b = r := by simpa [ha, List.find?_singleton] using hfind
    have haccepted : regOperandAccepted s.config.regIndexMode a = true := by
      simp [hmode, regOperandAccepted, Nat.not_le.mp ha]
    rw [hexec, withReg_of_accepted haccepted, withReg_of_illegal hmode hb]

end twoOperands

/-! ### The effect of ADD and MUL, and the frame of a write of FL -/

theorem Unchanged.setFl {rs : List Reg} {cells : List Byte} {s t : State} (h : Unchanged rs cells s t) (f : FlagBits) :
    Unchanged rs cells s (t.setFl f) :=
  ⟨h.regs, h.mem, h.faulted, h.faultCause, h.faultPc, h.faultInfo, h.config⟩

/-- ADD and MUL in one: with accepted operands the first register gets the result and pc the advance, and nothing else
changes; RegIndex raises for the rest. -/
theorem exec_aluWrite_effect {i : Instr} {f : Byte → Byte → Byte} {op a b : Byte} {s : State}
    (hops : i.regOperands = [a, b]) (hexec : exec i s = .next (aluWrite f op a b s)) :
    (i.wellFormed s.config.regIndexMode = true →
      ∃ t, exec i s = .next t ∧ t.reg (regOf a) = f (s.reg (regOf a)) (s.reg (regOf b)) ∧
        t.pc.toNat = (s.pc.toNat + instrLength op) % 256 ∧ t.fl = s.fl ∧ t.halted = s.halted ∧ t.trace = s.trace ∧
        Unchanged [regOf a] [] s t) ∧
    IllegalRegisterRaised i s := by
  refine ⟨fun hwf => ?completes, illegalRegisterRaised_of_withReg_withReg hops hexec⟩
  refine ⟨_, exec_of_withReg_withReg_of_wellFormed hops hexec hwf, State.setReg_reg_same s (regOf a) _, ?pc, rfl, rfl, rfl,
    ?frame⟩
  case pc => exact State.advance_pc_toNat (s.setReg (regOf a) _) op
  case frame => exact ((Unchanged.refl [regOf a] [] s).setReg (List.mem_singleton_self _) _).advance op

/-! ### The flags of each comparison -/

theorem compareFlags_of_lt {p q : Byte} (h : p.toNat < q.toNat) : compareFlags p q = 0b100 :=
  if_pos h

theorem compareFlags_of_gt {p q : Byte} (h : q.toNat < p.toNat) : compareFlags p q = 0b010 :=
  (if_neg h.not_gt).trans (if_pos h)

theorem compareFlags_of_eq {p q : Byte} (h : p.toNat = q.toNat) : compareFlags p q = 0b001 :=
  (if_neg h.not_lt).trans (if_neg h.not_gt)

end Sys2Proof.Machine
end

section
/-! The obligations of R74, R75 and R76. -/

namespace Sys2Proof.Machine

/-- Settles O28: ADD is `aluWrite` at the sum of bytes, which is the sum modulo 256. -/
theorem addStoresTheSumModulo256 : Obligations.AddStoresTheSumModulo256 := by
  intro a b s
  obtain ⟨hcompletes, hraises⟩ := exec_aluWrite_effect (i := .add a b) (s := s) rfl rfl
  refine ⟨fun hwf => ?_, hraises⟩
  obtain ⟨t, hexec, hreg, hrest⟩ := hcompletes hwf
  exact ⟨t, hexec, hreg ▸ BitVec.toNat_add _ _, hrest⟩

/-- Settles O29: MUL is `aluWrite` at the product of bytes, which is the product modulo 256. -/
theorem mulStoresTheProductModulo256 : Obligations.MulStoresTheProductModulo256 := by
  intro a b s
  obtain ⟨hcompletes, hraises⟩ := exec_aluWrite_effect (i := .mul a b) (s := s) rfl rfl
  refine ⟨fun hwf => ?_, hraises⟩
  obtain ⟨t, hexec, hreg, hrest⟩ := hcompletes hwf
  exact ⟨t, hexec, hreg ▸ BitVec.toNat_mul _ _, hrest⟩

/-- Settles O30: with accepted operands CMP is one write of FL and the advance of a three-byte opcode, and RegIndex raises
for the rest. -/
theorem cmpSetsExactlyOneFlag : Obligations.CmpSetsExactlyOneFlag := by
  refine fun a b s => ⟨fun hwf => ?completes, illegalRegisterRaised_of_withReg_withReg rfl rfl⟩
  have hexec : exec (.cmp a b) s =
      .next ((s.setFl (compareFlags (s.reg (regOf a)) (s.reg (regOf b)))).advance Opcode.cmp) :=
    exec_of_withReg_withReg_of_wellFormed rfl rfl hwf
  refine ⟨_, hexec, compareFlags_of_lt, compareFlags_of_gt, compareFlags_of_eq, ?pc, rfl, rfl, ?frame⟩
  case pc => exact State.advance_pc_toNat (s.setFl _) Opcode.cmp
  case frame => exact ((Unchanged.refl [] [] s).setFl _).advance Opcode.cmp

end Sys2Proof.Machine
end

section
/-! The obligation of R73: bit 5 cuts the opcode table down to ADD, MUL and CMP. -/

namespace Sys2Proof

theorem mem_opcodeTable_iff_of_alu {op : Byte} (h5 : op.getLsbD 5 = true) :
    op ∈ opcodeTable ↔ op ∈ ([0xA0, 0xA2, 0xA7] : List Byte) := by
  have htable : opcodeTable.filter (·.getLsbD 5) = [0xA0, 0xA2, 0xA7] := by decide
  rw [← htable, List.mem_filter, and_iff_left h5]

/-- Settles O7: with bit 5 set, an opcode byte of the table is one of the map's three, and any other is refused. -/
theorem aluOpcodesAreAddMulCmp : Obligations.AluOpcodesAreAddMulCmp := by
  intro op a b h5
  by_cases hmap : op ∈ ([0xA0, 0xA2, 0xA7] : List Byte)
  · obtain rfl | rfl | rfl : op = 0xA0 ∨ op = 0xA2 ∨ op = 0xA7 := by simpa using hmap
    · exact .inl ⟨rfl, rfl⟩
    · exact .inr (.inl ⟨rfl, rfl⟩)
    · exact .inr (.inr (.inl ⟨rfl, rfl⟩))
  · have hop : op ∉ opcodeTable := mt (mem_opcodeTable_iff_of_alu h5).mp hmap
    exact .inr (.inr (.inr ⟨hmap, decode_of_not_mem_opcodeTable a b hop⟩))

end Sys2Proof
end

section
/-! SUPPORT. The codec in one statement (R43, R49): a window decodes to the instruction whose encoding it begins with.
The facts about the opcode and the operands of what was decoded follow from it. -/

namespace Sys2Proof

/-- The per-instruction facts of `Laws.EncodedShape`, for every instruction. -/
theorem encodedShape (i : Instr) : Laws.EncodedShape.Statement i := by
  cases i with
  | hlt => exact Laws.EncodedShape.hlt
  | ldi a imm => exact Laws.EncodedShape.ldi a imm
  | prn a => exact Laws.EncodedShape.prn a
  | push a => exact Laws.EncodedShape.push a
  | pop a => exact Laws.EncodedShape.pop a
  | call a => exact Laws.EncodedShape.call a
  | ret => exact Laws.EncodedShape.ret
  | jmp a => exact Laws.EncodedShape.jmp a
  | jeq a => exact Laws.EncodedShape.jeq a
  | jne a => exact Laws.EncodedShape.jne a
  | add a b => exact Laws.EncodedShape.add a b
  | mul a b => exact Laws.EncodedShape.mul a b
  | cmp a b => exact Laws.EncodedShape.cmp a b

theorem length_encode (i : Instr) : (encode i).length = instrLength i.opcode := by
  obtain ⟨-, -, hlength, -⟩ := encodedShape i
  exact hlength

theorem opcode_mem_opcodeTable (i : Instr) : i.opcode ∈ opcodeTable := by
  obtain ⟨-, hmem, -⟩ := encodedShape i
  exact hmem

theorem exists_encode_eq_cons (i : Instr) : ∃ tail, encode i = i.opcode :: tail ∧ i.regOperands <+: tail := by
  obtain ⟨htail, -⟩ := encodedShape i
  exact htail

theorem instrLength_cases (op : Byte) : instrLength op = 1 ∨ instrLength op = 2 ∨ instrLength op = 3 := by
  unfold instrLength
  cases op.getLsbD 7 <;> cases op.getLsbD 6 <;> decide

theorem instrLength_le_three (op : Byte) : instrLength op ≤ 3 := by
  obtain h | h | h := instrLength_cases op <;> rw [h] <;> decide

/-- The window's decoder accepts exactly the windows that begin with an instruction's encoding, and answers it. -/
theorem decode_eq_ok_iff {op a b : Byte} {i : Instr} : decode op a b = .ok i ↔ encode i <+: [op, a, b] := by
  constructor
  · intro h
    unfold decode at h
    split at h <;> cases h <;> exact ⟨_, rfl⟩
  · intro h
    cases i <;> simp only [encode, List.cons_prefix_cons, List.nil_prefix, and_true] at h
    case hlt | ret => subst h; rfl
    case prn | push | pop | call | jmp | jeq | jne => obtain ⟨rfl, rfl⟩ := h; rfl
    case ldi | add | mul | cmp => obtain ⟨rfl, rfl, rfl⟩ := h; rfl

section decoded
variable {op a b : Byte} {i : Instr} (hd : decode op a b = .ok i)
include hd

theorem opcode_of_decode : i.opcode = op := by
  obtain ⟨tail, htail, -⟩ := exists_encode_eq_cons i
  have h := decode_eq_ok_iff.mp hd
  rw [htail, List.cons_prefix_cons] at h
  exact h.1

/-- The register operands are the lookahead bytes, in order (R46). -/
theorem regOperands_prefix_of_decode : i.regOperands <+: [a, b] := by
  obtain ⟨tail, htail, hregs⟩ := exists_encode_eq_cons i
  have h := decode_eq_ok_iff.mp hd
  rw [htail, List.cons_prefix_cons] at h
  exact hregs.trans h.2

theorem eq_of_head?_regOperands {q : Byte} (hq : i.regOperands.head? = some q) : q = a := by
  obtain ⟨rest, hrest⟩ := List.head?_eq_some_iff.mp hq
  have h := regOperands_prefix_of_decode hd
  rw [hrest, List.cons_prefix_cons] at h
  exact h.1

end decoded

end Sys2Proof
end

section
/-! The obligations of R43 and R49 about whole byte lists: decode and encode are inverse. -/

namespace Sys2Proof

/-- Up to the bytes that are there, the window `decodeBytes` decodes is the list itself: zeros fill it only
beyond them. -/
theorem take_window {op : Byte} {rest : List Byte} {n : Nat} (h3 : n ≤ 3) (hlen : n ≤ (op :: rest).length) :
    [op, rest.getD 0 0, rest.getD 1 0].take n = (op :: rest).take n := by
  have hwindow : [op, rest.getD 0 0, rest.getD 1 0] = (op :: rest ++ [0, 0]).take 3 := by
    rcases rest with _ | ⟨x, _ | ⟨y, rest⟩⟩ <;> rfl
  rw [hwindow, List.take_take, Nat.min_eq_left h3, List.take_append_of_le_length hlen]

theorem decodeBytes_cons_eq_ok_iff {op : Byte} {bytes rest : List Byte} {i : Instr} :
    decodeBytes (op :: bytes) = .ok (i, rest) ↔
      decode op (bytes.getD 0 0) (bytes.getD 1 0) = .ok i ∧ instrLength op ≤ (op :: bytes).length ∧
        rest = (op :: bytes).drop (instrLength op) := by
  have hdrop : (op :: bytes).drop (instrLength op) = bytes.drop (instrLength op - 1) := by
    obtain h | h | h := instrLength_cases op <;> rw [h] <;> rfl
  rw [decodeBytes, hdrop, List.length_cons]
  cases decode op (bytes.getD 0 0) (bytes.getD 1 0) with
  | error e => simp
  | ok j =>
    by_cases hlen : bytes.length + 1 < instrLength op
    · simp [hlen]
    · simp [hlen, Nat.not_lt.mp hlen, eq_comm]

/-- Where the list is long enough, its window decodes to `i` exactly when its first `Length(op)` bytes are the
encoding. -/
theorem decode_window_eq_ok_iff {bytes : List Byte} {i : Instr}
    (hlen : instrLength i.opcode ≤ (i.opcode :: bytes).length) :
    decode i.opcode (bytes.getD 0 0) (bytes.getD 1 0) = .ok i ↔
      encode i = (i.opcode :: bytes).take (instrLength i.opcode) := by
  rw [decode_eq_ok_iff, List.prefix_iff_eq_take, length_encode, take_window (instrLength_le_three _) hlen]

theorem decodeBytes_encode_append (i : Instr) (rest : List Byte) : decodeBytes (encode i ++ rest) = .ok (i, rest) := by
  obtain ⟨tail, htail, -⟩ := exists_encode_eq_cons i
  have hcons : i.opcode :: (tail ++ rest) = encode i ++ rest := by rw [htail, List.cons_append]
  have hlen : instrLength i.opcode ≤ (i.opcode :: (tail ++ rest)).length := by
    rw [hcons, List.length_append, length_encode]
    exact Nat.le_add_right _ _
  rw [← hcons, decodeBytes_cons_eq_ok_iff, decode_window_eq_ok_iff hlen, hcons]
  exact ⟨(List.take_left' (length_encode i)).symm, hcons ▸ hlen, (List.drop_left' (length_encode i)).symm⟩

theorem eq_encode_append_of_decodeBytes {bytes rest : List Byte} {i : Instr} (h : decodeBytes bytes = .ok (i, rest)) :
    bytes = encode i ++ rest := by
  cases bytes with
  | nil => simp [decodeBytes] at h
  | cons op bytes =>
    obtain ⟨hd, hlen, rfl⟩ := decodeBytes_cons_eq_ok_iff.mp h
    obtain rfl := opcode_of_decode hd
    rw [(decode_window_eq_ok_iff hlen).mp hd, List.take_append_drop]

/-- Settles O4: the encoding fills the decoder's window as far as `Length(op)` reaches, so it is what the window decodes
to. -/
theorem decodeOfEncodeIsTheInstruction : Obligations.DecodeOfEncodeIsTheInstruction :=
  decodeBytes_encode_append

/-- Settles O5: a window decodes only to the instruction whose encoding it begins with, and what is left is the list
after `Length(op)` bytes. -/
theorem encodeOfDecodeIsTheBytes : Obligations.EncodeOfDecodeIsTheBytes :=
  fun _ _ _ => eq_encode_append_of_decodeBytes

end Sys2Proof
end

section
/-! The obligations of R50's count and of the words in `95_test_vectors.md`. -/

namespace Sys2Proof

theorem decode_eq_unknownOpcode_iff (op a b : Byte) :
    decode op a b = .error (.unknownOpcode op) ↔ op ∉ opcodeTable := by
  obtain ⟨i, hd, -, hop⟩ | ⟨hd, hop⟩ := Machine.decode_cases op a b <;> simp [hd, hop]

/-- The numbers of the table's bytes, in another order. -/
theorem filter_mem_opcodeTable_perm :
    ((List.range 256).filter fun n => decide (BitVec.ofNat 8 n ∈ opcodeTable)).Perm (opcodeTable.map BitVec.toNat) := by
  refine (List.perm_ext_iff_of_nodup (List.nodup_range.filter _) (by decide)).mpr fun n => ?_
  simp only [List.mem_filter, List.mem_range, decide_eq_true_eq, List.mem_map]
  constructor
  · rintro ⟨hn, hop⟩
    exact ⟨_, hop, by rw [BitVec.toNat_ofNat, Nat.mod_eq_of_lt hn]⟩
  · rintro ⟨op, hop, rfl⟩
    exact ⟨op.isLt, by rwa [BitVec.ofNat_toNat, BitVec.setWidth_eq]⟩

theorem length_filter_mem_opcodeTable :
    ((List.range 256).filter fun n => decide (BitVec.ofNat 8 n ∈ opcodeTable)).length = 13 :=
  filter_mem_opcodeTable_perm.length_eq

/-- Settles O2: the refused bytes are those outside the table, whatever the lookahead: 256 less 13. -/
theorem unknownOpcodesAre243 : Obligations.UnknownOpcodesAre243 := by
  intro a b
  have hsplit := List.length_eq_length_filter_add (l := List.range 256)
    fun n => decide (BitVec.ofNat 8 n ∈ opcodeTable)
  rw [length_filter_mem_opcodeTable, List.length_range] at hsplit
  simp only [decode_eq_unknownOpcode_iff, decide_not]
  omega

/-- Settles O6: each word is an encoding with bytes after it, which decodes whatever they are; 0xA1 is outside the
table. -/
theorem vectorWordsDecode : Obligations.VectorWordsDecode :=
  ⟨decodeBytes_encode_append (.ldi 0 8) _, decodeBytes_encode_append (.prn 0) _, decodeBytes_encode_append .hlt _,
    decodeBytes_encode_append (.push 7) _, decodeBytes_encode_append (.call 1) _,
    decodeBytes_encode_append (.cmp 0 2) _, rfl⟩

end Sys2Proof
end

section
/-! SUPPORT. What an instruction does where nothing is raised, as one function, and what a step can do: one of four
things. The statements about every step follow from these. -/

namespace Sys2Proof.Machine

/-- The state after an instruction whose operands are accepted and whose stack check passes: `exec` with no check in it
(`exec_eq_effect`). -/
def effect : Instr → State → State
  | .hlt, s => s.halt.advance Opcode.hlt
  | .ldi a imm, s => (s.setReg (regOf a) imm).advance Opcode.ldi
  | .prn a, s => (s.emit (.out (s.reg (regOf a)))).advance Opcode.prn
  | .push a, s => ((decSp s).memWrite (decSp s).sp ((decSp s).reg (regOf a))).advance Opcode.push
  | .pop a, s => (incSp (s.setReg (regOf a) (s.memRead s.sp))).advance Opcode.pop
  | .call a, s => ((decSp s).memWrite (decSp s).sp (s.pc + 2)).setPc ((decSp s).reg (regOf a))
  | .ret, s => (incSp s).setPc (s.memRead s.sp)
  | .jmp a, s => s.setPc (s.reg (regOf a))
  | .jeq a, s => jumpIf (flE s.fl) (regOf a) s
  | .jne a, s => jumpIf (!flE s.fl) (regOf a) s
  | .add a b, s => (s.setReg (regOf a) (s.reg (regOf a) + s.reg (regOf b))).advance Opcode.add
  | .mul a b, s => (s.setReg (regOf a) (s.reg (regOf a) * s.reg (regOf b))).advance Opcode.mul
  | .cmp a b, s => (s.setFl (compareFlags (s.reg (regOf a)) (s.reg (regOf b)))).advance Opcode.cmp

/-- The instruction's stack check, if it has one, does not stop it (R63, R64). -/
def StackCheckPasses : Instr → State → Prop
  | .push _, s | .call _, s => ¬ (s.config.stackCheck = .on ∧ s.sp = 0x00)
  | .pop _, s | .ret, s => ¬ (s.config.stackCheck = .on ∧ s.sp = 0xFF)
  | _, _ => True

theorem checkPush_of_passes {s : State} (h : ¬ (s.config.stackCheck = .on ∧ s.sp = 0x00)) (k : State) :
    checkPush s k = k :=
  if_neg (mt (pushRaises_iff s).mp h)

theorem checkPop_of_passes {s : State} (h : ¬ (s.config.stackCheck = .on ∧ s.sp = 0xFF)) (k : State) :
    checkPop s k = k :=
  if_neg (mt (popRaises_iff s).mp h)

theorem checkPush_of_overflow {s : State} (hcheck : s.config.stackCheck = .on) (hsp : s.sp = 0x00) (k : State) :
    checkPush s k = raise .stackOverflow 0x00 s := by
  obtain ⟨h, -⟩ | ⟨-, -, e⟩ := checkPush_cases s k
  · exact absurd ⟨hcheck, hsp⟩ h
  · exact e

theorem checkPop_of_underflow {s : State} (hcheck : s.config.stackCheck = .on) (hsp : s.sp = 0xFF) (k : State) :
    checkPop s k = raise .stackUnderflow 0xFF s := by
  obtain ⟨h, -⟩ | ⟨-, -, e⟩ := checkPop_cases s k
  · exact absurd ⟨hcheck, hsp⟩ h
  · exact e

/-- Where its operands are accepted and its stack check passes, an instruction has exactly its effect. -/
theorem exec_eq_effect {i : Instr} {s : State} (hwf : i.wellFormed s.config.regIndexMode = true)
    (hpass : StackCheckPasses i s) : exec i s = .next (effect i s) := by
  cases i with
  | hlt => rfl
  | ldi a imm | prn a | jmp a | jeq a | jne a => exact exec_of_withReg_of_wellFormed rfl rfl hwf
  | add a b | mul a b | cmp a b => exact exec_of_withReg_withReg_of_wellFormed rfl rfl hwf
  | push a | call a =>
    exact (exec_of_withReg_of_wellFormed rfl rfl hwf).trans (congrArg Host.Outcome.next (checkPush_of_passes hpass _))
  | pop a =>
    exact (exec_of_withReg_of_wellFormed rfl rfl hwf).trans (congrArg Host.Outcome.next (checkPop_of_passes hpass _))
  | ret => exact congrArg Host.Outcome.next (checkPop_of_passes hpass _)

/-! ### The effect, or a raise -/

/-- `t` is `e`, or `s` with one condition raised that arises in `s`. -/
def IsOrRaises (s e t : State) : Prop := t = e ∨ ∃ c info, FaultArises s c info ∧ t = raise c info s

theorem IsOrRaises.raised {s e : State} {c : Condition} {info : Byte} (h : FaultArises s c info) :
    IsOrRaises s e (raise c info s) := .inr ⟨c, info, h, rfl⟩

theorem withReg_isOrRaises {r : Byte} {s e : State} {k : Reg → State} (hk : IsOrRaises s e (k (regOf r))) :
    IsOrRaises s e (withReg r s k) := by
  obtain ⟨-, h⟩ | ⟨hmode, h8, h⟩ := withReg_cases r s k <;> rw [h]
  · exact hk
  · exact .raised (.illegalRegister hmode h8)

theorem checkPush_isOrRaises (s k : State) : IsOrRaises s k (checkPush s k) := by
  obtain ⟨-, h⟩ | ⟨hcheck, hsp, h⟩ := checkPush_cases s k <;> rw [h]
  · exact .inl rfl
  · exact .raised (.stackOverflow hcheck hsp)

theorem checkPop_isOrRaises (s k : State) : IsOrRaises s k (checkPop s k) := by
  obtain ⟨-, h⟩ | ⟨hcheck, hsp, h⟩ := checkPop_cases s k <;> rw [h]
  · exact .inl rfl
  · exact .raised (.stackUnderflow hcheck hsp)

/-- In every state an instruction has its effect, or raises a condition that arises there. -/
theorem exec_isOrRaises (i : Instr) (s : State) : ∃ t, exec i s = .next t ∧ IsOrRaises s (effect i s) t := by
  cases i with
  | hlt => exact ⟨_, rfl, .inl rfl⟩
  | ldi a imm | prn a | jmp a | jeq a | jne a => exact ⟨_, rfl, withReg_isOrRaises (.inl rfl)⟩
  | add a b | mul a b | cmp a b => exact ⟨_, rfl, withReg_isOrRaises (withReg_isOrRaises (.inl rfl))⟩
  | push a | call a => exact ⟨_, rfl, withReg_isOrRaises (checkPush_isOrRaises s _)⟩
  | pop a => exact ⟨_, rfl, withReg_isOrRaises (checkPop_isOrRaises s _)⟩
  | ret => exact ⟨_, rfl, checkPop_isOrRaises s _⟩

/-! ### What a step can do -/

/-- The states a step of `s` can lead to (R54 to R58, R81, R85). -/
inductive StepLeadsTo (s : State) : State → Prop where
  /-- Outside Running nothing happens. -/
  | idle (hr : s.isRunning = false) : StepLeadsTo s s
  /-- The fetched instruction has its effect. -/
  | effect {i : Instr} (hr : s.isRunning = true)
      (hd : decode (s.memRead s.pc) (s.memRead (s.pc + 1)) (s.memRead (s.pc + 2)) = .ok i) :
      StepLeadsTo s (effect i s)
  /-- An unknown opcode is skipped. -/
  | skip (hr : s.isRunning = true) (hop : s.memRead s.pc ∉ opcodeTable) :
      StepLeadsTo s ((s.emit (.diag (s.memRead s.pc) s.pc)).advance (s.memRead s.pc))
  /-- A condition is raised. -/
  | raise {c : Condition} {info : Byte} (hr : s.isRunning = true) (h : FaultArises s c info) :
      StepLeadsTo s (raise c info s)

theorem stepLeadsTo_of_step {s t : State} (h : step s = .next t) : StepLeadsTo s t := by
  obtain ⟨hr, e⟩ | ⟨hr, i, hd, -, e⟩ | ⟨hr, hop, e⟩ := step_cases s <;> rw [e] at h
  · cases h
    exact .idle hr
  · obtain ⟨u, hu, rfl | ⟨c, info, harises, rfl⟩⟩ := exec_isOrRaises i s <;> cases hu.symm.trans h
    · exact .effect hr hd
    · exact .raise hr harises
  · cases h
    obtain ⟨-, e'⟩ | ⟨hpolicy, e'⟩ := execUnknown_cases (s.memRead s.pc) s <;> rw [e']
    · exact .skip hr hop
    · exact .raise hr (.unknownOpcode hpolicy hop)

end Sys2Proof.Machine
end

section
/-! SUPPORT. What an instruction's effect changes and what it leaves, one fact per element of the state. -/

namespace Sys2Proof.Machine

theorem effect_sameFaultRecord (i : Instr) (s : State) : SameFaultRecord s (effect i s) := by
  cases i <;> exact ⟨rfl, rfl, rfl, rfl, rfl⟩

/-- Without bit 4 in its opcode an instruction moves pc by its length (R57). -/
theorem effect_pc_of_not_opcodeSetsPc {i : Instr} (s : State) (h : opcodeSetsPc i.opcode = false) :
    (effect i s).pc = (s.advance i.opcode).pc := by
  cases i with
  | call | ret | jmp | jeq | jne => simp [opcodeSetsPc, Instr.opcode] at h
  | _ => rfl

theorem effect_mem_wf (i : Instr) {s : State} (hs : Memory.wf s.mem = true) : Memory.wf (effect i s).mem = true := by
  cases i with
  | push | call => exact State.memWrite_wf (s := decSp s) hs _ _
  | _ => exact hs

theorem compareFlags_legal (p q : Byte) : legalFlags (compareFlags p q) = true := by
  obtain ⟨-, e⟩ | ⟨-, e⟩ | ⟨-, e⟩ := compareFlags_cases p q <;> rw [e] <;> decide

theorem effect_flags_legal (i : Instr) {s : State} (hs : legalFlags s.fl = true) :
    legalFlags (effect i s).fl = true := by
  cases i with
  | cmp => exact compareFlags_legal _ _
  | _ => exact hs

theorem decSp_sp (s : State) : (decSp s).sp = s.sp - 1 := State.setReg_sp_same s _

theorem eq_of_pushed_memRead_ne {s : State} {addr v : Byte}
    (h : ((decSp s).memWrite (decSp s).sp v).memRead addr ≠ s.memRead addr) : addr = s.sp - 1 := by
  rw [decSp_sp] at h
  by_contra hne
  exact h (State.memWrite_memRead_other (decSp s) hne v)

/-- Only PUSH and CALL store, and only in the cell below the stack pointer (R31). -/
theorem effect_memRead_ne {i : Instr} {s : State} {addr : Byte} (h : (effect i s).memRead addr ≠ s.memRead addr) :
    (i.opcode = 0x45 ∨ i.opcode = 0x50) ∧ addr = s.sp - 1 := by
  cases i with
  | push a => exact ⟨.inl rfl, eq_of_pushed_memRead_ne h⟩
  | call a => exact ⟨.inr rfl, eq_of_pushed_memRead_ne h⟩
  | _ => exact absurd rfl h

theorem eq_of_setReg_reg_ne {s : State} {r q : Reg} {v : Byte} (h : (s.setReg r v).reg q ≠ s.reg q) : q = r := by
  by_contra hne
  exact h (State.setReg_reg_other s hne v)

/-- A register changes only as the first operand of LDI, POP, ADD or MUL, or as SP in a stack operation (R15). -/
theorem effect_reg_ne {i : Instr} {s : State} {r : Reg} (h : (effect i s).reg r ≠ s.reg r) :
    (i.opcode ∈ ([0x82, 0x46, 0xA0, 0xA2] : List Byte) ∧ ∃ a, i.regOperands.head? = some a ∧ r = regOf a) ∨
    (i.opcode ∈ ([0x45, 0x46, 0x50, 0x11] : List Byte) ∧ r = spIndex) := by
  cases i with
  | ldi a imm => exact .inl ⟨by simp [Instr.opcode], a, rfl, eq_of_setReg_reg_ne h⟩
  | add a b | mul a b => exact .inl ⟨by simp [Instr.opcode], a, rfl, eq_of_setReg_reg_ne h⟩
  | push a | call a => exact .inr ⟨by simp [Instr.opcode], eq_of_setReg_reg_ne h⟩
  | ret => exact .inr ⟨by simp [Instr.opcode], eq_of_setReg_reg_ne h⟩
  | pop a =>
    by_cases hsp : r = spIndex
    · exact .inr ⟨by simp [Instr.opcode], hsp⟩
    · have hreg : (effect (.pop a) s).reg r = (s.setReg (regOf a) (s.memRead s.sp)).reg r :=
        State.setReg_reg_other _ hsp _
      exact .inl ⟨by simp [Instr.opcode], a, rfl, eq_of_setReg_reg_ne (hreg ▸ h)⟩
  | _ => exact absurd rfl h

/-- Only PRN emits, and it emits one event (R25, R62). -/
theorem effect_trace (i : Instr) (s : State) : (effect i s).trace = s.trace ∨
    (i.opcode = 0x47 ∧ ∃ a, i.regOperands.head? = some a ∧
      (effect i s).trace = s.trace ++ [Event.out (s.reg (regOf a))]) := by
  cases i with
  | prn a => exact .inr ⟨rfl, a, rfl, rfl⟩
  | _ => exact .inl rfl

end Sys2Proof.Machine
end

section
/-! The obligations about the fault record and the invariant: at reset, in a step, and in every history. -/

namespace Sys2Proof.Machine

/-! ### The fault record (R80) -/

theorem faultRecordOk_iff_of_not_faulted {s : State} (hf : s.faulted = false) :
    FaultRecordOk s ↔ s.faultCause = .none ∧ s.faultPc = 0x00 ∧ s.faultInfo = 0x00 := by
  unfold FaultRecordOk
  cases s.faultCause <;> simp [hf]

/-- What `raise` records is what the condition allows: its trigger is unchanged by the raise. -/
theorem faultRecordOk_raise {s : State} {c : Condition} {info : Byte} (h : FaultArises s c info) :
    FaultRecordOk (raise c info s) := by
  cases h with
  | unknownOpcode hpolicy hop => exact ⟨rfl, hpolicy, hop⟩
  | illegalRegister hmode h8 => exact ⟨rfl, hmode, h8⟩
  | stackOverflow hcheck hsp => exact ⟨rfl, hcheck, rfl, hsp⟩
  | stackUnderflow hcheck hsp => exact ⟨rfl, hcheck, rfl, hsp⟩

/-! ### The invariant through the ways a state changes -/

/-- A Running core with the invariant keeps it where no fault is recorded and memory, FL and the run state keep their
clauses. -/
theorem CoreInv.of_sameFaultRecord {s t : State} (hs : CoreInv s) (hr : s.isRunning = true)
    (hrecord : SameFaultRecord s t) (hmem : Memory.wf t.mem = true) (hfl : legalFlags t.fl = true) : CoreInv t := by
  obtain ⟨-, hnotFaulted⟩ := s.isRunning_iff.mp hr
  have hf : t.faulted = false := hrecord.faulted.trans hnotFaulted
  refine ⟨hmem, hfl, by simp [hf], ?_, by simp [hf]⟩
  rw [faultRecordOk_iff_of_not_faulted hf, hrecord.faultCause, hrecord.faultPc, hrecord.faultInfo,
    ← faultRecordOk_iff_of_not_faulted hnotFaulted]
  exact hs.fault_record

theorem CoreInv.raise {s : State} {c : Condition} {info : Byte} (hs : CoreInv s) (hr : s.isRunning = true)
    (h : FaultArises s c info) : CoreInv (raise c info s) := by
  obtain ⟨hnotHalted, -⟩ := s.isRunning_iff.mp hr
  exact ⟨hs.mem_wf, hs.flags_legal, by simp [hnotHalted], faultRecordOk_raise h, fun _ => rfl⟩

theorem CoreInv.setMem {s : State} (hs : CoreInv s) {m : Memory} (hm : Memory.wf m = true) :
    CoreInv { s with mem := m } :=
  ⟨hm, hs.flags_legal, hs.not_both, hs.fault_record, hs.fault_pc⟩

/-- Every step from a state with the invariant keeps it. -/
theorem step_coreInv {s t : State} (hs : CoreInv s) (h : step s = .next t) : CoreInv t := by
  cases stepLeadsTo_of_step h with
  | idle => exact hs
  | @effect i hr _ =>
    exact hs.of_sameFaultRecord hr (effect_sameFaultRecord i s) (effect_mem_wf i hs.mem_wf)
      (effect_flags_legal i hs.flags_legal)
  | skip hr => exact hs.of_sameFaultRecord hr ⟨rfl, rfl, rfl, rfl, rfl⟩ hs.mem_wf hs.flags_legal
  | raise hr harises => exact hs.raise hr harises

/-- Settles O50: a step changes nothing, has an instruction's effect, skips an unknown opcode or raises, and each keeps
the invariant. -/
theorem stepKeepsTheInvariant : Obligations.StepKeepsTheInvariant :=
  fun _ _ => step_coreInv

/-- Reset gives the invariant from any state, whatever the configuration it keeps (R96). -/
theorem coreInv_resetOp (s : State) : CoreInv (resetOp s) :=
  ⟨Memory.reset_wf, rfl, by simp [resetOp, State.reset], ⟨rfl, rfl, rfl⟩, by simp [resetOp, State.reset]⟩

/-- Settles O49: reset of a created core is that core, so its invariant is that of a reset. -/
theorem invariantHoldsAtReset : Obligations.InvariantHoldsAtReset :=
  ⟨coreInv_resetOp State.reset, rfl, fun c => ⟨coreInv_resetOp (State.created c), rfl, rfl, rfl⟩⟩

/-! ### Host operations and histories -/

theorem perform_coreInv (op : HostOp) {s : State} (hs : CoreInv s) : CoreInv (perform op s) := by
  cases op with
  | reset => exact coreInv_resetOp s
  | load bytes =>
    rw [perform_load_only_mem bytes s]
    exact hs.setMem (perform_load_wf bytes hs.mem_wf)
  | step =>
    obtain ⟨t, ht⟩ := exists_step_eq_next s
    rw [perform_step_of_next ht]
    exact step_coreInv hs ht

/-- What every host operation keeps, every history keeps. -/
theorem performAll_keeps {P : State → Prop} (hP : ∀ op s, P s → P (perform op s)) (ops : List HostOp) {s : State}
    (hs : P s) : P (performAll ops s) := by
  induction ops generalizing s with
  | nil => exact hs
  | cons op ops ih => exact ih (hP op s hs)

theorem performAll_coreInv (ops : List HostOp) {s : State} (hs : CoreInv s) : CoreInv (performAll ops s) :=
  performAll_keeps (fun op _ => perform_coreInv op) ops hs

/-- Settles O51: reset gives the invariant, a load writes memory alone and keeps its form, a step keeps it by
`step_coreInv`; a history is an induction over these, and creation is a reset. -/
theorem everyHistoryKeepsTheInvariant : Obligations.EveryHistoryKeepsTheInvariant :=
  ⟨fun _ op => perform_coreInv op, fun _ ops => performAll_coreInv ops,
    fun c ops => performAll_coreInv ops (coreInv_resetOp (State.created c))⟩

end Sys2Proof.Machine
end

section
/-! The obligations about which instruction a step runs (R54, R55, R56), and what it does with an unknown opcode (R81,
R82). -/

namespace Sys2Proof.Machine

theorem State.isRunning_of_not_halted_not_faulted {s : State} (hh : s.halted = false) (hf : s.faulted = false) :
    s.isRunning = true :=
  s.isRunning_iff.mpr ⟨hh, hf⟩

/-- Settles O8: the window fetched is the three cells from pc on, and a Running core runs what it decodes to. -/
theorem stepRunsTheDecodedInstruction : Obligations.StepRunsTheDecodedInstruction :=
  fun _ _ hh hf => step_of_decode_ok (State.isRunning_of_not_halted_not_faulted hh hf)

/-- Cells from pc on that hold the bytes of `i` make the fetched window begin with its encoding. -/
theorem encode_prefix_window {s : State} {i : Instr}
    (h : ∀ (k : Nat) (v : Byte), (encode i)[k]? = some v → s.memRead (s.pc + BitVec.ofNat 8 k) = v) :
    encode i <+: [s.memRead s.pc, s.memRead (s.pc + 1), s.memRead (s.pc + 2)] := by
  rw [List.prefix_iff_getElem?]
  intro k hk
  have hcell := h k _ (List.getElem?_eq_getElem hk)
  have hk3 : k < 3 := hk.trans_le ((length_encode i).trans_le (instrLength_le_three _))
  rw [← hcell]
  match k, hk3 with
  | 0, _ => simp
  | 1, _ => rfl
  | 2, _ => rfl

/-- Settles O9: the window begins with the encoding of `i`, so it decodes to `i` whatever the bytes beyond. -/
theorem stepRunsTheEncodedInstruction : Obligations.StepRunsTheEncodedInstruction :=
  fun _ _ hh hf h =>
    step_of_decode_ok (State.isRunning_of_not_halted_not_faulted hh hf) (decode_eq_ok_iff.mpr (encode_prefix_window h))

/-- Settles O10: neither Halted nor Faulted is Running. -/
theorem stepOutsideRunningDoesNothing : Obligations.StepOutsideRunningDoesNothing := by
  intro s h
  refine step_of_not_running ?_
  obtain h | h := h <;> simp [State.isRunning, h]

/-- Settles O11: every instruction has a next state, and so have the unknown-opcode rule and the idle step. -/
theorem everyStepHasANextState : Obligations.EveryStepHasANextState :=
  exists_step_eq_next

theorem execUnknown_of_skip {op : Byte} {s : State} (h : s.config.unknownOpcodePolicy = .skip) :
    execUnknown op s = (s.emit (.diag op s.pc)).advance op := by
  simp [execUnknown, h]

theorem execUnknown_of_fault {op : Byte} {s : State} (h : s.config.unknownOpcodePolicy = .fault) :
    execUnknown op s = raise .unknownOpcode op s := by
  simp [execUnknown, h]

theorem Unchanged.emit {rs : List Reg} {cells : List Byte} {s t : State} (h : Unchanged rs cells s t) (e : Event) :
    Unchanged rs cells s (t.emit e) :=
  ⟨h.regs, h.mem, h.faulted, h.faultCause, h.faultPc, h.faultInfo, h.config⟩

/-- Settles O12: under `skip` the rule is one event and the advance. -/
theorem unknownOpcodeIsSkipped : Obligations.UnknownOpcodeIsSkipped := by
  intro s hh hf hpolicy hop
  have hstep := step_of_unknownOpcode (State.isRunning_of_not_halted_not_faulted hh hf) hop
  rw [execUnknown_of_skip hpolicy] at hstep
  exact ⟨_, hstep, rfl, State.advance_pc_toNat (s.emit _) _, rfl, hh, ((Unchanged.refl [] [] s).emit _).advance _⟩

/-- Settles O13: under `fault` the rule is one raise. -/
theorem unknownOpcodeFaults : Obligations.UnknownOpcodeFaults := by
  intro s hh hf hpolicy hop
  rw [step_of_unknownOpcode (State.isRunning_of_not_halted_not_faulted hh hf) hop, execUnknown_of_fault hpolicy]
  rfl

end Sys2Proof.Machine
end

section
/-! The obligations of RegIndex and PRN (R47, R62). -/

namespace Sys2Proof.Machine

theorem withReg_of_mask {r : Byte} {s : State} (hm : s.config.regIndexMode = .mask) (k : Reg → State) :
    withReg r s k = k (regOf r) :=
  withReg_of_accepted (by rw [hm]; rfl) k

theorem withReg_of_lt_eight {r : Byte} {s : State} (h : r.toNat < 8) (k : Reg → State) : withReg r s k = k (regOf r) :=
  withReg_of_accepted (by cases s.config.regIndexMode <;> simp [regOperandAccepted, h]) k

theorem regOf_eq {r : Byte} {q : Reg} (h : q.val = r.toNat % 8) : regOf r = q :=
  Fin.ext h.symm

/-- Settles O15: the three branches of RegIndex, at the register their index names. -/
theorem regIndexDecodesTheOperandByte : Obligations.RegIndexDecodesTheOperandByte := by
  refine fun r s k => ⟨fun hm q hq => ?_, fun _ q hq => ?_, fun hm h8 => withReg_of_illegal hm h8 k⟩
  · rw [withReg_of_mask hm, regOf_eq hq]
  · have hlt : r.toNat < 8 := hq ▸ q.isLt
    rw [withReg_of_lt_eight hlt, regOf_eq (hq.trans (Nat.mod_eq_of_lt hlt).symm)]

/-- Settles O18: an accepted operand byte makes PRN one event and the advance of a two-byte opcode, and RegIndex raises
for the rest. -/
theorem prnEmitsTheRegister : Obligations.PrnEmitsTheRegister := by
  refine fun a s => ⟨fun hwf => ?completes, illegalRegisterRaised_of_withReg rfl rfl⟩
  exact ⟨_, exec_eq_effect hwf trivial, rfl, State.advance_pc_toNat (s.emit _) Opcode.prn, rfl, rfl,
    ((Unchanged.refl [] [] s).emit _).advance _⟩

end Sys2Proof.Machine
end

section
/-! The obligations of the stack: PUSH, POP, CALL and RET with their checks (R63 to R68, R83). -/

namespace Sys2Proof.Machine

theorem Unchanged.memWrite {rs : List Reg} {cells : List Byte} {s t : State} (h : Unchanged rs cells s t) {addr : Byte}
    (haddr : addr ∈ cells) (v : Byte) : Unchanged rs cells s (t.memWrite addr v) where
  regs := h.regs
  mem b hb := by
    have hne : b ≠ addr := fun e => hb (e ▸ haddr)
    rw [State.memWrite_memRead_other t hne, h.mem b hb]
  faulted := h.faulted
  faultCause := h.faultCause
  faultPc := h.faultPc
  faultInfo := h.faultInfo
  config := h.config

/-- The register a push reads after the decrement: R7 is SP, already decremented (D17). -/
theorem decSp_reg (s : State) (r : Reg) : (decSp s).reg r = if r = spIndex then s.sp - 1 else s.reg r := by
  simp [State.setReg_reg, eq_comm]

theorem pushed_memRead (s : State) (v : Byte) : ((decSp s).memWrite (decSp s).sp v).memRead (s.sp - 1) = v := by
  rw [decSp_sp, State.memWrite_memRead_same]

/-- The frame of Push8: SP and the cell below it (R63). -/
theorem pushed_unchanged (s : State) (v : Byte) :
    Unchanged [spIndex] [s.sp - 1] s ((decSp s).memWrite (decSp s).sp v) :=
  ((Unchanged.refl [spIndex] [s.sp - 1] s).setReg (List.mem_singleton_self _) _).memWrite
    (List.mem_singleton.mpr (decSp_sp s)) v

/-- PUSH and CALL in one: an accepted operand and then the check of a push. -/
theorem exec_of_overflow {i : Instr} {a : Byte} {s : State} {k : Reg → State} (hops : i.regOperands = [a])
    (hexec : exec i s = .next (withReg a s fun r => checkPush s (k r)))
    (hwf : i.wellFormed s.config.regIndexMode = true) (hcheck : s.config.stackCheck = .on) (hsp : s.sp = 0x00) :
    exec i s = .next (raise .stackOverflow 0x00 s) := by
  rw [exec_of_withReg_of_wellFormed hops hexec hwf, checkPush_of_overflow hcheck hsp]

theorem exec_pop_of_underflow {a : Byte} {s : State} (hwf : (Instr.pop a).wellFormed s.config.regIndexMode = true)
    (hcheck : s.config.stackCheck = .on) (hsp : s.sp = 0xFF) :
    exec (.pop a) s = .next (raise .stackUnderflow 0xFF s) :=
  (exec_of_withReg_of_wellFormed rfl rfl hwf).trans (congrArg Host.Outcome.next (checkPop_of_underflow hcheck hsp _))

theorem exec_ret_of_underflow {s : State} (hcheck : s.config.stackCheck = .on) (hsp : s.sp = 0xFF) :
    exec .ret s = .next (raise .stackUnderflow 0xFF s) :=
  congrArg Host.Outcome.next (checkPop_of_underflow hcheck hsp _)

/-- Settles O19: with its check passed PUSH is Push8 of the register read after the decrement, and the advance. -/
theorem pushStoresBelowTheStackPointer : Obligations.PushStoresBelowTheStackPointer := by
  refine fun a s => ⟨fun hwf hpass => ?completes, exec_of_overflow rfl rfl, illegalRegisterRaised_of_withReg rfl rfl⟩
  refine ⟨_, exec_eq_effect hwf hpass, decSp_sp s, ?stored, ?pc, rfl, rfl, rfl, (pushed_unchanged s _).advance _⟩
  case stored => exact (pushed_memRead s _).trans (decSp_reg s _)
  case pc => exact State.advance_pc_toNat ((decSp s).memWrite _ _) Opcode.push

/-- Settles O20: with its check passed POP writes the register and then increments SP, which for R7 is the value just
written. -/
theorem popLoadsFromTheStackPointer : Obligations.PopLoadsFromTheStackPointer := by
  refine fun a s => ⟨fun hwf hpass => ?completes, exec_pop_of_underflow, illegalRegisterRaised_of_withReg rfl rfl⟩
  refine ⟨_, exec_eq_effect hwf hpass, fun hne => ⟨?loaded, ?incremented⟩, fun heq => ?loadedSp, ?pc, rfl,
    rfl, rfl, ?frame⟩
  case loaded => exact (State.setReg_reg_other _ hne _).trans (State.setReg_reg_same s _ _)
  case incremented =>
    exact (State.setReg_sp_same _ _).trans (congrArg (· + 1) (State.setReg_reg_other s hne.symm _))
  case loadedSp =>
    refine (State.setReg_sp_same _ _).trans (congrArg (· + 1) ?_)
    rw [heq, State.setReg_sp_same]
  case pc => exact State.advance_pc_toNat (incSp (s.setReg _ _)) Opcode.pop
  case frame =>
    exact (((Unchanged.refl [regOf a, spIndex] [] s).setReg (by simp) _).setReg (by simp) _).advance _

/-- Settles O22: with its check passed CALL is Push8 of pc + 2 and a write of pc, from the register read after it. -/
theorem callPushesTheReturnAddress : Obligations.CallPushesTheReturnAddress := by
  refine fun a s => ⟨fun hwf hpass => ?completes, exec_of_overflow rfl rfl, illegalRegisterRaised_of_withReg rfl rfl⟩
  refine ⟨_, exec_eq_effect hwf hpass, decSp_sp s, ?stored, decSp_reg s _, rfl, rfl, rfl,
    (pushed_unchanged s _).setPc _⟩
  case stored => exact (congrArg BitVec.toNat (pushed_memRead s _)).trans (BitVec.toNat_add _ _)

/-- Settles O23: with its check passed RET is Pop8 into pc. -/
theorem retPopsIntoThePc : Obligations.RetPopsIntoThePc := by
  refine fun s => ⟨fun hpass => ?completes, exec_ret_of_underflow⟩
  refine ⟨_, exec_eq_effect rfl hpass, rfl, ?sp, rfl, rfl, rfl, ?frame⟩
  case sp => exact (congrArg BitVec.toNat (State.setReg_sp_same s _)).trans (BitVec.toNat_add _ _)
  case frame => exact ((Unchanged.refl [spIndex] [] s).setReg (List.mem_singleton_self _) _).setPc _

/-- A decrement reaches 0xFF only from 0x00, so what passes the check of a push passes that of the matching pop. -/
theorem pop_passes_after_push {s t : State} (hconfig : t.config = s.config) (hsp : t.sp = s.sp - 1)
    (hpass : ¬ (s.config.stackCheck = .on ∧ s.sp = 0x00)) : ¬ (t.config.stackCheck = .on ∧ t.sp = 0xFF) := by
  rw [hconfig, hsp]
  rintro ⟨hcheck, hff⟩
  exact hpass ⟨hcheck, by bv_omega⟩

/-- Settles O21, from the effects of PUSH and POP: what POP loads is what PUSH stored, for R7 the decremented SP. -/
theorem pushThenPopRestores : Obligations.PushThenPopRestores := by
  intro a s hwf hpass
  obtain ⟨t, hpush, htsp, hstored, htpc, -, -, -, htframe⟩ := (pushStoresBelowTheStackPointer a s).1 hwf hpass
  have hwf' : (Instr.pop a).wellFormed t.config.regIndexMode = true := htframe.config ▸ hwf
  obtain ⟨u, hpop, hother, hseven, hupc, -⟩ :=
    (popLoadsFromTheStackPointer a t).1 hwf' (pop_passes_after_push htframe.config htsp hpass)
  rw [htsp, hstored] at hother hseven
  have hrestored : u.reg (regOf a) = s.reg (regOf a) ∧ u.sp = s.sp := by
    by_cases hr : regOf a = spIndex
    · have husp : u.sp = s.sp := by rw [hseven hr, if_pos hr, BitVec.sub_add_cancel]
      exact ⟨hr ▸ husp, husp⟩
    · obtain ⟨hreg, husp⟩ := hother hr
      exact ⟨by rw [hreg, if_neg hr], by rw [husp, BitVec.sub_add_cancel]⟩
  obtain ⟨hreg, husp⟩ := hrestored
  exact ⟨t, u, hpush, hpop, hreg, husp, by omega⟩

/-- Settles O24, from the effects of CALL and RET: the cell RET reads is the one CALL stored pc + 2 in. -/
theorem callThenRetResumesAfterTheCall : Obligations.CallThenRetResumesAfterTheCall := by
  intro a s t u hwf hpass hcall huconfig husp hcell
  obtain ⟨t', hcall', htsp, hstored, -, -, -, -, hframe⟩ := (callPushesTheReturnAddress a s).1 hwf hpass
  cases hcall'.symm.trans hcall
  obtain ⟨v, hret, hvpc, hvsp, -⟩ :=
    (retPopsIntoThePc u).1 (pop_passes_after_push (huconfig.trans hframe.config) (husp.trans htsp) hpass)
  refine ⟨v, hret, ?pc, ?sp⟩
  case pc => rw [hvpc, husp, hcell, htsp, hstored]
  case sp =>
    rw [husp, htsp] at hvsp
    bv_omega

end Sys2Proof.Machine
end

section
/-! The obligations about what every step keeps: each is read off the four things a step can do. -/

namespace Sys2Proof.Machine

/-- Settles O14: an effect without bit 4 and a skipped opcode advance, and what ends Faulted is a raise, which keeps
pc. -/
theorem genericAdvanceRule : Obligations.GenericAdvanceRule := by
  intro s t hh hf h
  cases stepLeadsTo_of_step h with
  | idle hr => simp [State.isRunning, hh, hf] at hr
  | @effect i _ hd =>
    have hnotFaulted : (effect i s).faulted = false := (effect_sameFaultRecord i s).faulted.trans hf
    refine ⟨fun _ hself => ?_, fun hfaulted => absurd hfaulted (by simp [hnotFaulted])⟩
    have hop : i.opcode = s.memRead s.pc := opcode_of_decode hd
    have hmem : i.opcode ∈ opcodeTable := opcode_mem_opcodeTable i
    rw [← hop] at hself ⊢
    have hbit : opcodeSetsPc i.opcode = false := Bool.eq_false_iff.mpr fun h4 => hself ⟨hmem, h4⟩
    rw [effect_pc_of_not_opcodeSetsPc s hbit, State.advance_pc_toNat]
  | skip => exact ⟨fun _ _ => State.advance_pc_toNat (s.emit _) _, fun hfaulted => absurd hfaulted (by simp [hf])⟩
  | raise => exact ⟨nofun, fun _ => rfl⟩

/-- Settles O33: of the four only an instruction's effect stores, and that is PUSH's or CALL's. -/
theorem onlyPushAndCallStore : Obligations.OnlyPushAndCallStore := by
  intro s t addr h hne
  cases stepLeadsTo_of_step h with
  | effect _ hd =>
    rw [← opcode_of_decode hd]
    exact effect_memRead_ne hne
  | _ => exact absurd rfl hne

/-- Settles O34: of the four only an instruction's effect writes a register, and its first operand is the byte after the
opcode. -/
theorem registerWritersAreTheTables : Obligations.RegisterWritersAreTheTables := by
  intro s t r h hne
  cases stepLeadsTo_of_step h with
  | effect _ hd =>
    rw [← opcode_of_decode hd]
    obtain ⟨hop, a, hhead, rfl⟩ | hsp := effect_reg_ne hne
    · exact .inl ⟨hop, congrArg regOf (eq_of_head?_regOperands hd hhead)⟩
    · exact .inr hsp
  | _ => exact absurd rfl hne

/-- Settles O38: PRN's effect and a skipped opcode emit one event each, and nothing else emits. -/
theorem atMostOneEventAStep : Obligations.AtMostOneEventAStep := by
  intro s t h
  cases stepLeadsTo_of_step h with
  | idle | raise => exact .inl rfl
  | skip _ hop => exact .inr (.inr ⟨hop, rfl⟩)
  | @effect i _ hd =>
    obtain hsame | ⟨hop, a, hhead, hout⟩ := effect_trace i s
    · exact .inl hsame
    · rw [opcode_of_decode hd] at hop
      rw [eq_of_head?_regOperands hd hhead] at hout
      exact .inr (.inl ⟨hop, hout⟩)

theorem FaultArises.ne_none {s : State} {c : Condition} {info : Byte} (h : FaultArises s c info) : c ≠ .none := by
  cases h <;> nofun

theorem FaultArises.ne_programTooLarge {s : State} {c : Condition} {info : Byte} (h : FaultArises s c info) :
    c ≠ .programTooLarge := by
  cases h <;> nofun

/-- Settles O35: a step from an unfaulted core that ends Faulted is one raise. -/
theorem faultsArePrecise : Obligations.FaultsArePrecise := by
  intro s t _ hf h hfaulted
  obtain ⟨-, rfl⟩ | ⟨-, hsame | ⟨c, info, harises, rfl⟩⟩ := step_keepsRecordOrRaises h
  · simp [hf] at hfaulted
  · simp [hsame.faulted, hf] at hfaulted
  · exact ⟨rfl, harises.ne_none, harises.ne_programTooLarge, rfl⟩

end Sys2Proof.Machine
end

section
/-! The obligation of R87: of two conditions of one step the first in the priority order is reported. -/

namespace Sys2Proof.Machine

theorem illegalRegisterRaised (i : Instr) (s : State) : IllegalRegisterRaised i s := by
  cases i with
  | hlt | ret => intro r _ hfind; cases hfind
  | ldi | prn | push | pop | call | jmp | jeq | jne => exact illegalRegisterRaised_of_withReg rfl rfl
  | add | mul | cmp => exact illegalRegisterRaised_of_withReg_withReg rfl rfl

/-- Only HLT and RET have no register operand. -/
theorem exists_head?_regOperands {i : Instr} (hhlt : i.opcode ≠ 0x01) (hret : i.opcode ≠ 0x11) :
    ∃ a, i.regOperands.head? = some a := by
  cases i with
  | hlt => exact absurd rfl hhlt
  | ret => exact absurd rfl hret
  | _ => exact ⟨_, rfl⟩

theorem find?_regOperands_of_head? {i : Instr} {a : Byte} (hhead : i.regOperands.head? = some a) (h8 : 8 ≤ a.toNat) :
    i.regOperands.find? (fun q => decide (8 ≤ q.toNat)) = some a := by
  obtain ⟨rest, hrest⟩ := List.head?_eq_some_iff.mp hhead
  rw [hrest, List.find?_cons_of_pos (by simpa using h8)]

theorem wellFormed_of_lt_eight {i : Instr} {a : Byte} (hops : i.regOperands = [a]) (ha : a.toNat < 8)
    (mode : RegIndexMode) : i.wellFormed mode = true :=
  (wellFormed_iff_of_regOperands_singleton hops mode).mpr (by cases mode <;> simp [regOperandAccepted, ha])

theorem exists_decode_eq_ok {op : Byte} (hop : op ∈ opcodeTable) (a b : Byte) : ∃ i, decode op a b = .ok i := by
  obtain ⟨i, hd, -, -⟩ | ⟨-, hno⟩ := decode_cases op a b
  · exact ⟨i, hd⟩
  · exact absurd hop hno

theorem exists_decode_eq_ok_of_alu {op : Byte} (hop : op ∈ ([0xA0, 0xA2, 0xA7] : List Byte)) (a b : Byte) :
    ∃ i, decode op a b = .ok i ∧ i.regOperands = [a, b] := by
  obtain rfl | rfl | rfl : op = 0xA0 ∨ op = 0xA2 ∨ op = 0xA7 := by simpa using hop
  · exact ⟨.add a b, rfl, rfl⟩
  · exact ⟨.mul a b, rfl, rfl⟩
  · exact ⟨.cmp a b, rfl, rfl⟩

/-- Settles O36: the opcode is looked up first, then RegIndex reads a before b, and the stack check comes last. -/
theorem firstConditionIsReported : Obligations.FirstConditionIsReported := by
  intro s hh hf hconfig op a b
  have hr := State.isRunning_of_not_halted_not_faulted hh hf
  have hmode : s.config.regIndexMode = .fault := by rw [hconfig]
  have hcheck : s.config.stackCheck = .on := by rw [hconfig]
  have hstep {i : Instr} (hd : decode op a b = .ok i) : step s = exec i s := step_of_decode_ok hr hd
  refine ⟨fun hop => ?unknown, fun hop hhlt hret h8 => ?illegalA, fun hop ha hb => ?illegalB,
    fun hop ha hsp => ?overflow, fun hop ha hsp => ?popUnderflow, fun hop hsp => ?retUnderflow⟩
  case unknown => rw [step_of_unknownOpcode hr hop, execUnknown_of_fault (by rw [hconfig])]
  case illegalA =>
    obtain ⟨i, hd⟩ := exists_decode_eq_ok hop a b
    rw [← opcode_of_decode hd] at hhlt hret
    obtain ⟨q, hhead⟩ := exists_head?_regOperands hhlt hret
    rw [eq_of_head?_regOperands hd hhead] at hhead
    rw [hstep hd, illegalRegisterRaised i s a hmode (find?_regOperands_of_head? hhead h8)]
  case illegalB =>
    obtain ⟨i, hd, hops⟩ := exists_decode_eq_ok_of_alu hop a b
    rw [hstep hd, illegalRegisterRaised i s b hmode (by simp [hops, ha, hb])]
  case overflow =>
    obtain hop | hop : op = 0x45 ∨ op = 0x50 := by simpa using hop
    · have hd : decode op a b = .ok (.push a) := by rw [hop]; rfl
      rw [hstep hd, exec_of_overflow rfl rfl (wellFormed_of_lt_eight rfl ha _) hcheck hsp]
    · have hd : decode op a b = .ok (.call a) := by rw [hop]; rfl
      rw [hstep hd, exec_of_overflow rfl rfl (wellFormed_of_lt_eight rfl ha _) hcheck hsp]
  case popUnderflow =>
    have hd : decode op a b = .ok (.pop a) := by rw [hop]; rfl
    rw [hstep hd, exec_pop_of_underflow (wellFormed_of_lt_eight rfl ha _) hcheck hsp]
  case retUnderflow =>
    have hd : decode op a b = .ok .ret := by rw [hop]; rfl
    rw [hstep hd, exec_ret_of_underflow hcheck hsp]

end Sys2Proof.Machine
end

section
/-! The obligations about two instructions in a row: CMP and a conditional jump (S4), PUSH and the next fetch (R41). -/

namespace Sys2Proof.Machine

/-- CMP sets E exactly on equal operands (R76). -/
theorem flE_compareFlags_iff (p q : Byte) : flE (compareFlags p q) = true ↔ p = q := by
  obtain ⟨h, e⟩ | ⟨h, e⟩ | ⟨h, e⟩ := compareFlags_cases p q <;> rw [e]
  · exact iff_of_false (by decide) (by rintro rfl; exact h.false)
  · exact iff_of_false (by decide) (by rintro rfl; exact h.false)
  · exact iff_of_true rfl h

/-- Settles O31: CMP leaves E as the comparison and pc three further, and the jump reads both. -/
theorem compareDecidesTheJump : Obligations.CompareDecidesTheJump := by
  intro a b c s t hcmp hjump h
  rw [exec_eq_effect hcmp trivial] at h
  cases h
  have hE := flE_compareFlags_iff (s.reg (regOf a)) (s.reg (regOf b))
  have hnotE : (!flE (compareFlags (s.reg (regOf a)) (s.reg (regOf b)))) = true ↔
      ¬ s.reg (regOf a) = s.reg (regOf b) := by rw [Bool.not_eq_true', ← hE, Bool.not_eq_true]
  have hnext : s.pc + 3 + 2 = s.pc + 5 := BitVec.add_assoc _ _ _
  refine ⟨_, _, exec_eq_effect (i := .jeq c) hjump trivial, exec_eq_effect (i := .jne c) hjump trivial, ?jeq, ?jne⟩
  case jeq => exact if_congr hE rfl hnext
  case jne => exact (if_congr hnotE rfl hnext).trans (ite_not ..)

/-- Settles O41: PUSH runs from the bytes fetched before its store; the next step fetches from memory after it. -/
theorem storesAreSeenByTheNextFetch : Obligations.StoresAreSeenByTheNextFetch := by
  intro a s hh hf hop ha hwf hpass hne
  have hr := State.isRunning_of_not_halted_not_faulted hh hf
  have hd : decode (s.memRead s.pc) (s.memRead (s.pc + 1)) (s.memRead (s.pc + 2)) = .ok (.push a) := by
    rw [hop, ha]; rfl
  obtain ⟨t, hexec, -, hstored, hpcNat, -, hhalted, -, hframe⟩ := (pushStoresBelowTheStackPointer a s).1 hwf hpass
  have hpc : t.pc = s.pc + 2 := BitVec.eq_of_toNat_eq (hpcNat.trans (BitVec.toNat_add s.pc 2).symm)
  rw [if_neg hne] at hstored
  refine ⟨t, (step_of_decode_ok hr hd).trans hexec, hstored, hpc, fun hover i hi => ?_⟩
  have hrt : t.isRunning = true :=
    State.isRunning_of_not_halted_not_faulted (hhalted.trans hh) (hframe.faulted.trans hf)
  refine step_of_decode_ok hrt ?_
  rw [hover] at hstored
  rw [hpc, hstored, BitVec.add_assoc, BitVec.add_assoc]
  exact hi

end Sys2Proof.Machine
end

section
/-! The obligations about the host operations: what reset, a load and a history leave (R13, R37, R86, R88, R96, R98). -/

namespace Sys2Proof.Machine

/-- Settles O44: reset is `State.reset` with the trace and the configuration kept. -/
theorem resetGivesEveryResetValue : Obligations.ResetGivesEveryResetValue := by
  intro s
  have hregs : ∀ r : Reg, State.reset.reg r = if r.val = 7 then 0xF4 else 0x00 := by decide
  exact ⟨fun _ => rfl, hregs, rfl, rfl, rfl, rfl, rfl, rfl, rfl, rfl, rfl, rfl⟩

/-- A stopped core changes by a load in memory alone and by a step not at all. -/
theorem perform_of_not_running {s : State} {op : HostOp} (hr : s.isRunning = false) (hop : op ≠ .reset) :
    perform op s = { s with mem := (perform op s).mem } := by
  cases op with
  | reset => exact absurd rfl hop
  | load bytes => exact perform_load_only_mem bytes s
  | step => rw [perform_step_of_not_running hr]

/-- Settles O40: a Faulted core is stopped, so but for reset only memory can change. -/
theorem onlyResetLeavesFaulted : Obligations.OnlyResetLeavesFaulted := by
  refine fun s op hf => ⟨fun hop => ?_, ?_⟩
  · rw [perform_of_not_running (by simp [State.isRunning, hf]) hop]
    exact ⟨hf, rfl, rfl, rfl⟩
  · rintro rfl
    rfl

/-- A Running core with pc = 0x00 runs what the first cells decode to, or the rule for their unknown opcode. -/
theorem step_at_zero {s : State} (hpc : s.pc = 0x00) (hr : s.isRunning = true) :
    (∀ i, decode (s.memRead 0x00) (s.memRead 0x01) (s.memRead 0x02) = .ok i → step s = exec i s) ∧
    (s.memRead 0x00 ∉ opcodeTable → step s = .next (execUnknown (s.memRead 0x00) s)) := by
  refine ⟨fun i hd => step_of_decode_ok hr ?_, fun hop => ?_⟩
  · rw [hpc]
    exact hd
  · rw [← hpc] at hop ⊢
    exact step_of_unknownOpcode hr hop

/-- Settles O45: reset leaves the core Running at 0x00, a load keeps that, and the step goes by `step_at_zero`; a
stopped core changes in memory alone but for reset. -/
theorem executionStartsAtZero : Obligations.ExecutionStartsAtZero := by
  refine ⟨fun s => ⟨rfl, rfl, ?fresh⟩, fun s bytes => ?loaded, fun s op hr hrun => ?stopped⟩
  case fresh =>
    have hop : (0x00 : Byte) ∉ opcodeTable := by decide
    exact (step_at_zero (s := perform .reset s) rfl rfl).2 hop
  case loaded =>
    have hmem := perform_load_only_mem bytes (perform .reset s)
    have hpc : (perform (.load bytes) (perform .reset s)).pc = 0x00 := by rw [hmem]; rfl
    have hr : (perform (.load bytes) (perform .reset s)).isRunning = true := by rw [hmem]; rfl
    exact ⟨hpc, hr, step_at_zero hpc hr⟩
  case stopped =>
    by_contra hop
    rw [perform_of_not_running hr hop] at hrun
    exact Bool.false_ne_true (hr.symm.trans hrun)

/-- A load writes its bytes from address `i` on: a later cell holds its byte of the list, if there is one. -/
theorem loadFrom_memRead {i : Nat} {vs : List Byte} (s : State) (hfits : i + vs.length ≤ 256) (addr : Byte) :
    (loadFrom i vs s).memRead addr =
      if addr.toNat < i then s.memRead addr else vs.getD (addr.toNat - i) (s.memRead addr) := by
  induction vs generalizing i s with
  | nil => simp
  | cons v vs ih =>
    rw [List.length_cons] at hfits
    have hi : addr = BitVec.ofNat 8 i ↔ addr.toNat = i := by
      rw [← BitVec.toNat_inj, BitVec.toNat_ofNat, Nat.mod_eq_of_lt (by omega)]
    rw [loadFrom_cons, ih (s.memWrite (BitVec.ofNat 8 i) v) (by omega), State.memWrite_memRead, if_congr hi rfl rfl]
    obtain hlt | heq | hgt := Nat.lt_trichotomy addr.toNat i
    · rw [if_pos (by omega), if_neg (by omega), if_pos hlt]
    · rw [if_pos (by omega), if_pos heq, if_neg (by omega), heq, Nat.sub_self, List.getD_cons_zero]
    · rw [if_neg (by omega), if_neg (by omega), if_neg (by omega), ← List.getD_cons_succ (x := v)]
      congr 1
      omega

/-- Settles O46: a load that fits is `loadFrom 0`, and one that does not is refused. -/
theorem loadWritesExactlyItsBytes : Obligations.LoadWritesExactlyItsBytes := by
  refine fun bytes s => ⟨fun hfits => ⟨loadFrom 0 bytes s, if_pos hfits, fun addr => ?_, ?_⟩, fun hlong => ?_⟩
  · exact loadFrom_memRead s (by omega) addr
  · rw [loadFrom_only_mem]
  · have hload : load bytes s = .fault (.programTooLarge bytes.length) := if_neg (Nat.not_le.mpr hlong)
    exact ⟨hload, by rw [perform, hload, afterwards]⟩

theorem step_config {s t : State} (h : step s = .next t) : t.config = s.config := by
  obtain ⟨-, rfl⟩ | ⟨-, hsame | ⟨c, info, -, rfl⟩⟩ := step_keepsRecordOrRaises h
  · rfl
  · exact hsame.config
  · rfl

theorem perform_config (op : HostOp) (s : State) : (perform op s).config = s.config := by
  cases op with
  | reset => rfl
  | load bytes => rw [perform_load_only_mem bytes s]
  | step =>
    obtain ⟨t, ht⟩ := exists_step_eq_next s
    rw [perform_step_of_next ht, step_config ht]

/-- Settles O47: an induction over the history, one operation at a time. -/
theorem configurationIsFixed : Obligations.ConfigurationIsFixed :=
  fun ops s => performAll_keeps (P := fun t => t.config = s.config)
    (fun op t h => (perform_config op t).trans h) ops rfl

theorem perform_not_faulted_of_default (op : HostOp) {s : State} (hc : s.config = Config.default)
    (hf : s.faulted = false) : (perform op s).faulted = false := by
  cases op with
  | reset => rfl
  | load bytes => rwa [perform_load_only_mem bytes s]
  | step =>
    obtain ⟨t, ht⟩ := exists_step_eq_next s
    rw [perform_step_of_next ht]
    obtain ⟨-, rfl⟩ | ⟨-, hkeep⟩ := step_keepsRecordOrRaises ht
    · exact hf
    · exact (hkeep.sameFaultRecord_of_default hc).faulted.trans hf

/-- Settles O37: in the default configuration no condition arises, and no operation changes the configuration. -/
theorem defaultConfigurationNeverFaults : Obligations.DefaultConfigurationNeverFaults := by
  intro ops s hc hf
  have hkeeps : (performAll ops s).config = Config.default ∧ (performAll ops s).faulted = false :=
    performAll_keeps (P := fun t => t.config = Config.default ∧ t.faulted = false)
      (fun op t h => ⟨(perform_config op t).trans h.1, perform_not_faulted_of_default op h.1 h.2⟩) ops ⟨hc, hf⟩
  exact hkeeps.2

end Sys2Proof.Machine
end

section
/-! The obligation of R59 and R103: run is repeated step. -/

namespace Sys2Proof.Machine

theorem runFor_of_not_running {s : State} (hr : s.isRunning = false) (n : Nat) : runFor n s = .next s := by
  cases n with
  | zero => rfl
  | succ n => simp [runFor, hr]

theorem runFor_succ_of_step {s t : State} (hr : s.isRunning = true) (h : step s = .next t) (n : Nat) :
    runFor (n + 1) s = runFor n t := by
  simp [runFor, hr, h]

theorem runReturns_iff_of_not_running {s u : State} (hr : s.isRunning = false) : RunReturns s u ↔ u = s := by
  constructor
  · rintro ⟨n, hn, -⟩
    rw [runFor_of_not_running hr] at hn
    exact (Host.Outcome.next.inj hn).symm
  · rintro rfl
    exact ⟨0, rfl, hr⟩

theorem runReturns_iff_of_step {s t u : State} (hr : s.isRunning = true) (h : step s = .next t) :
    RunReturns s u ↔ RunReturns t u := by
  constructor
  · rintro ⟨_ | n, hn, hu⟩
    · cases hn
      exact absurd hr (Bool.eq_false_iff.mp hu)
    · rw [runFor_succ_of_step hr h] at hn
      exact ⟨n, hn, hu⟩
  · rintro ⟨n, hn, hu⟩
    exact ⟨n + 1, (runFor_succ_of_step hr h n).trans hn, hu⟩

theorem RunReturns.not_running {s t : State} (h : RunReturns s t) : t.isRunning = false := by
  obtain ⟨-, -, hstop⟩ := h
  exact hstop

/-- A run that returns returns one state: an induction over the steps of one of two runs. -/
theorem RunReturns.unique {s t u : State} (ht : RunReturns s t) (hu : RunReturns s u) : t = u := by
  obtain ⟨n, hn, hstop⟩ := ht
  induction n generalizing s with
  | zero =>
    cases hn
    exact ((runReturns_iff_of_not_running hstop).mp hu).symm
  | succ n ih =>
    cases hr : s.isRunning with
    | false =>
      rw [runFor_of_not_running hr] at hn
      cases hn
      exact ((runReturns_iff_of_not_running hr).mp hu).symm
    | true =>
      obtain ⟨s', hs'⟩ := exists_step_eq_next s
      rw [runFor_succ_of_step hr hs'] at hn
      exact ih ((runReturns_iff_of_step hr hs').mp hu) hn

/-- Settles O48: one unfolding of `runFor` for each clause, and uniqueness by induction over the steps. -/
theorem runIsRepeatedStep : Obligations.RunIsRepeatedStep := by
  refine ⟨fun s hr => ?stopped, fun s t u => runReturns_iff_of_step, fun s t u ht hu => ⟨ht.unique hu, ht.not_running⟩⟩
  case stopped => exact (runReturns_iff_of_not_running hr).mpr rfl

end Sys2Proof.Machine
end

section
/-! The obligation about canonical memories: the reads determine the list. -/

namespace Sys2Proof.Machine

/-- The first entry of a canonical list is in range and reads as no unlisted cell does. -/
theorem Memory.read_head_ne_unlisted {lo b : Nat} {w : Byte} {m : Memory}
    (h : Memory.wfFrom lo ((b, w) :: m) = true) : b < 256 ∧ Memory.read ((b, w) :: m) b ≠ Memory.unlisted := by
  obtain ⟨-, hb, hw, -⟩ := (Memory.wfFrom_cons lo b w m).mp h
  exact ⟨hb, by rwa [Memory.read, if_pos rfl]⟩

/-- Of two canonical lists that read alike, the second does not begin above the first. -/
theorem Memory.head_le_of_read_eq {lo lo' b c : Nat} {w v : Byte} {m n : Memory}
    (hm : Memory.wfFrom lo ((b, w) :: m) = true) (hn : Memory.wfFrom lo' ((c, v) :: n) = true)
    (h : ∀ a < 256, Memory.read ((b, w) :: m) a = Memory.read ((c, v) :: n) a) : c ≤ b := by
  obtain ⟨hb, hne⟩ := Memory.read_head_ne_unlisted hm
  obtain ⟨-, hc, hv, hn'⟩ := (Memory.wfFrom_cons lo' c v n).mp hn
  by_contra hlt
  have hfrom : Memory.wfFrom c ((c, v) :: n) = true := (Memory.wfFrom_cons c c v n).mpr ⟨le_rfl, hc, hv, hn'⟩
  exact hne ((h b hb).trans (Memory.read_below hfrom (by omega)))

/-- Canonical lists that read alike below 256 are equal: they begin at the same address with the same byte, and what
follows reads alike too. -/
theorem Memory.eq_of_read_eq {lo lo' : Nat} {m n : Memory} (hm : Memory.wfFrom lo m = true)
    (hn : Memory.wfFrom lo' n = true) (h : ∀ a < 256, Memory.read m a = Memory.read n a) : m = n := by
  induction m generalizing lo lo' n with
  | nil =>
    cases n with
    | nil => rfl
    | cons d n =>
      obtain ⟨hd, hne⟩ := Memory.read_head_ne_unlisted hn
      exact absurd (h _ hd).symm hne
  | cons c m ih =>
    cases n with
    | nil =>
      obtain ⟨hc, hne⟩ := Memory.read_head_ne_unlisted hm
      exact absurd (h _ hc) hne
    | cons d n =>
      obtain ⟨b, w⟩ := c
      obtain ⟨b', v⟩ := d
      obtain rfl : b = b' :=
        Nat.le_antisymm (Memory.head_le_of_read_eq hn hm fun a ha => (h a ha).symm) (Memory.head_le_of_read_eq hm hn h)
      obtain ⟨-, hb, -, hm'⟩ := (Memory.wfFrom_cons lo b w m).mp hm
      obtain ⟨-, -, -, hn'⟩ := (Memory.wfFrom_cons lo' b v n).mp hn
      obtain rfl : w = v := by simpa [Memory.read] using h b hb
      have htail : m = n := ih hm' hn' fun a ha => by
        by_cases hab : a = b
        · rw [Memory.read_below hm' (by omega), Memory.read_below hn' (by omega)]
        · simpa [Memory.read, hab] using h a ha
      rw [htail]

/-- Settles O52: every address below 256 is the value of a byte. -/
theorem canonicalMemoriesThatReadAlikeAreEqual : Obligations.CanonicalMemoriesThatReadAlikeAreEqual :=
  fun _ _ hm hn h => Memory.eq_of_read_eq hm hn fun a ha => by
    simpa [Nat.mod_eq_of_lt ha] using h (BitVec.ofNat 8 a)

end Sys2Proof.Machine
end

section
/-! The obligations of the outputs: FL read as a byte (R19), the condition codes (R80), and `status` (R13, R22, R23). -/

namespace Sys2Proof.Machine

/-- A bit of FL read as a byte is the bit of FL. -/
theorem flByte_getLsbD (fl : FlagBits) {k : Nat} (hk : k < 8) : (flByte fl).getLsbD k = fl.getLsbD k := by
  simp [flByte, hk]

theorem flByte_toNat (fl : FlagBits) : (flByte fl).toNat = fl.toNat := by
  have hlt : fl.toNat < 8 := fl.isLt
  simp [flByte, Nat.mod_eq_of_lt (hlt.trans (by decide : 8 < 256))]

/-- Settles O42: widening keeps the bits and the value, which is below 8. -/
theorem flagByteHasThreeBits : Obligations.FlagByteHasThreeBits :=
  fun fl => ⟨flByte_getLsbD fl (by decide), flByte_getLsbD fl (by decide), flByte_getLsbD fl (by decide),
    (flByte_toNat fl).trans_lt fl.isLt⟩

/-- Settles O43, by computing the six codes. -/
theorem conditionCodesAreNumbered : Obligations.ConditionCodesAreNumbered :=
  rfl

theorem State.status_of_faulted {s : State} (hf : s.faulted = true) : s.status = .faulted s.faultCause :=
  if_pos hf

theorem State.status_of_not_faulted {s : State} (hf : s.faulted = false) :
    s.status = if s.halted then .halted else .running :=
  if_neg (by simp [hf])

/-- Settles O53: `status` looks at `faulted` first and then at `halted`, and the premise shuts out both. -/
theorem statusShowsTheRunState : Obligations.StatusShowsTheRunState := by
  refine fun s => ⟨s.status_eq_running_iff.trans s.isRunning_iff, fun hboth => ?_⟩
  cases hf : s.faulted with
  | true =>
    have hh : s.halted = false := Bool.eq_false_iff.mpr fun hh => hboth ⟨hh, hf⟩
    simp [State.status_of_faulted hf, hh]
  | false => cases hh : s.halted <;> simp [State.status_of_not_faulted hf, hh]

end Sys2Proof.Machine
end
